-- ==== Sys2Proof/Word.lean ====
section
/-! DEFINITION. The words of the Aseba CAN transport core: bytes, 16-bit lengths and indices, the eight data
bytes of a frame, and the Frame value (00_scope.md R10, R11; 10_state.md R24). -/

namespace Sys2Proof

/-- A byte is 8 bits (R11). -/
abbrev Byte := BitVec 8

/-- A 16-bit length or index (R28, R32, R34, R35). -/
abbrev Half := BitVec 16

/-- `bytes[8]`, the data field of a frame (R24): exactly eight bytes, by construction. -/
structure Bytes8 where
  d0 : Byte
  d1 : Byte
  d2 : Byte
  d3 : Byte
  d4 : Byte
  d5 : Byte
  d6 : Byte
  d7 : Byte
deriving DecidableEq, Repr

/-- A Frame is a value of an 11-bit identifier, a 4-bit payload length and eight data bytes (R24, R80).
The field widths hold by construction (R25). -/
structure Frame where
  id   : BitVec 11
  dlc  : BitVec 4
  data : Bytes8
deriving DecidableEq, Repr

/-- `zeros(n)` is n zero bytes (R11). -/
def zeros (n : Nat) : List Byte := List.replicate n 0

end Sys2Proof
end

