-- ==== Sys2Proof/Config.lean ====
section
/-! DEFINITION. What the spec leaves to the implementation or to the environment: the three open parameters
(00_scope.md R7) and the free room answer (41_segmenter.md R141). -/

namespace Sys2Proof

/-- The open parameters of R7. They are fixed for the life of the block (20_memory.md R70): the model keeps
them in `State.cfg`, which no operation writes (log entry 1). -/
structure Config where
  /-- POOL_FRAMES, P: the number of slots in the transmit frame pool. -/
  poolFrames : Nat
  /-- MAX_MSG, M: the longest message in bytes, and the size of each message buffer. -/
  maxMsg     : Nat
  /-- DQ_DEPTH, D: the number of entries in the Dispatch Queue. -/
  dqDepth    : Nat
deriving DecidableEq, Repr

/-- The legal ranges of R7. -/
abbrev Config.Legal (c : Config) : Prop :=
  1 ≤ c.poolFrames ∧ c.poolFrames ≤ 65535 ∧ c.maxMsg ≤ 65535 ∧ 1 ≤ c.dqDepth ∧ c.dqDepth ≤ 65535

/-- The configuration of the spec's test vectors, P = 4, M = 32, D = 2 (R7). The spec fixes no value: that the
reset state has these is a DESIGN CHOICE (log entry 2). -/
def Config.testVectors : Config := { poolFrames := 4, maxMsg := 32, dqDepth := 2 }

/-- FREE VALUE. The driver's answer to the n-th room query for which the environment has laid down no answer in
`State.roomAnswers` (R141: "A model draws r freely at each query"). It has no body: nothing in Lean can evaluate
it (log entry 4). -/
opaque Config.freeRoomAnswer : Nat → Bool

end Sys2Proof
end

