-- ==== Sys2Proof/Syntax.lean ====
section
/-! DEFINITION. The operations of the block as syntax, one constructor for every mnemonic of
spec/opcode_table.json, and the raw arrivals they are decoded from. -/

namespace Sys2Proof

/-- The operations. The first six are the commands of 30_encoding.md R95. `reservedCmd` stands for the reserved
command codes (R97). The last four are the frame kinds of R82: one frame that the driver's receive interrupt
delivers, told by its identifier (R90, R101). -/
inductive Instr where
  /-- INIT (R210). -/
  | init (localId : BitVec 8)
  /-- SEND of a byte sequence (R133). -/
  | send (b : List Byte)
  /-- RECV (R194). -/
  | recv (maxSize : Half)
  /-- FRAME_RECEIVED of the frame `(id, dlc, data)` (R160). -/
  | frameReceived (id : BitVec 11) (dlc : BitVec 4) (data : Bytes8)
  /-- FRAME_SENT (R142). -/
  | frameSent
  /-- DISPATCH (R144). -/
  | dispatch
  /-- RESERVED_CMD: a first byte 0x06 to 0xFF (R97). -/
  | reservedCmd (code : Byte)
  /-- RX_SINGLE: a frame of kind 0 from `src` (R162). -/
  | rxSingle (src : BitVec 8) (dlc : BitVec 4) (data : Bytes8)
  /-- RX_FIRST: a frame of kind 1 from `src` (R165). -/
  | rxFirst (src : BitVec 8) (dlc : BitVec 4) (data : Bytes8)
  /-- RX_CONT: a frame of kind 2 from `src` (R168). -/
  | rxCont (src : BitVec 8) (dlc : BitVec 4) (data : Bytes8)
  /-- RX_RESERVED_KIND: a frame of kind 3 to 7 (R172). -/
  | rxReservedKind (kind : BitVec 3) (src : BitVec 8) (dlc : BitVec 4) (data : Bytes8)
deriving DecidableEq, Repr

/-- One thing that arrives at the block, before it is decoded. The opcode table has two formats, and so have the
arrivals (log entry 5). -/
inductive Arrival where
  /-- Format CMD: command bytes as in R96. The bytes may hold several commands, one after the other. -/
  | command (bytes : List Byte)
  /-- Format CANID: one frame delivered by the driver, in the block's frame representation (R80). -/
  | frame (f : Frame)
deriving DecidableEq, Repr

/-- The interface an operation arrives on (00_scope.md R15). -/
inductive Interface where
  | application
  | interrupt
deriving DecidableEq, Repr

end Sys2Proof
end

