-- ==== Sys2Proof/WellFormed.lean ====
section
/-! DEFINITION. Which instruction terms stand for an encoding of the spec: the operand ranges that the types of
`Instr` do not already enforce. -/

namespace Sys2Proof

/-- The operand checks: SEND's length fits the 16-bit L field (30_encoding.md R96), a reserved code is 0x06 to
0xFF (R97), and a reserved kind is 3 to 7 (R82). -/
def Instr.wf : Instr → Bool
  | .init _ => true
  | .send b => decide (b.length ≤ 65535)
  | .recv _ => true
  | .frameReceived _ _ _ => true
  | .frameSent => true
  | .dispatch => true
  | .reservedCmd code => decide (6 ≤ code.toNat)
  | .rxSingle _ _ _ => true
  | .rxFirst _ _ _ => true
  | .rxCont _ _ _ => true
  | .rxReservedKind kind _ _ _ => decide (3 ≤ kind.toNat)

/-- The operations that are commands (R95), as against frames told by their identifier. -/
def Instr.isCommand : Instr → Bool
  | .init _ => true
  | .send _ => true
  | .recv _ => true
  | .frameReceived _ _ _ => true
  | .frameSent => true
  | .dispatch => true
  | .reservedCmd _ => true
  | .rxSingle _ _ _ => false
  | .rxFirst _ _ _ => false
  | .rxCont _ _ _ => false
  | .rxReservedKind _ _ _ _ => false

end Sys2Proof
end

