-- ==== Sys2Proof/Decode.lean ====
section
/-! DEFINITION. From arrivals to operations (30_encoding.md): the bit fields and byte order of identifiers, lengths
and frames, the command decoder and the frame classifier, and after them the encoder, written from the same tables. -/

namespace Sys2Proof

/-! ## Bit fields and byte order -/

/-- The 16-bit number with low byte `lo` and high byte `hi`: every two-byte field is little-endian
(R84, R96; 20_memory.md R61). -/
def le16 (lo hi : Byte) : Half := hi ++ lo

/-- Bits [7:0] of a 16-bit number. -/
def lowByte (w : Half) : Byte := w.extractLsb' 0 8

/-- Bits [15:8] of a 16-bit number. -/
def highByte (w : Half) : Byte := w.extractLsb' 8 8

/-- `mkid(k, s) = {kind[2:0], src[7:0]}` (R81). -/
def mkid (k : BitVec 3) (s : BitVec 8) : BitVec 11 := k ++ s

/-- `kind(id) = id[10:8]` (R81). -/
def kindOf (id : BitVec 11) : BitVec 3 := id.extractLsb' 8 3

/-- `src(id) = id[7:0]` (R81). -/
def srcOf (id : BitVec 11) : BitVec 8 := id.extractLsb' 0 8

/-- The data bytes in index order. -/
def Bytes8.toList (d : Bytes8) : List Byte := [d.d0, d.d1, d.d2, d.d3, d.d4, d.d5, d.d6, d.d7]

/-- The first eight bytes of a list, padded with zero bytes (R87, R100). -/
def Bytes8.ofList (l : List Byte) : Bytes8 :=
  { d0 := l.getD 0 0, d1 := l.getD 1 0, d2 := l.getD 2 0, d3 := l.getD 3 0,
    d4 := l.getD 4 0, d5 := l.getD 5 0, d6 := l.getD 6 0, d7 := l.getD 7 0 }

/-! ## Frame kinds -/

/-- The answers of `classify` (R90). -/
inductive FrameClass where
  | malformedDlc
  | single
  | first
  | cont
  | reserved
deriving DecidableEq, Repr

/-- `classify(id, dlc)` of R90: the DLC test comes first. -/
def classify (id : BitVec 11) (dlc : BitVec 4) : FrameClass :=
  if 8 < dlc.toNat then .malformedDlc
  else match (kindOf id).toNat with
    | 0 => .single
    | 1 => .first
    | 2 => .cont
    | _ => .reserved

/-! ## The decoder -/

/-- Why a command is no valid encoding (R99). -/
inductive DecodeError where
  /-- The command is shorter than its format. -/
  | truncated
  /-- FRAME_RECEIVED: byte 2 has one of bits [7:3] set, so the identifier does not fit 11 bits. -/
  | idTooWide
  /-- FRAME_RECEIVED: byte 3 has one of bits [7:4] set, so the DLC does not fit 4 bits. -/
  | dlcTooWide
deriving DecidableEq, Repr

/-- What the command decoder answers: an operation and the bytes after it, or why there is none. -/
abbrev Decoded := Except DecodeError (Instr × List Byte)

/-- INIT: `[0x00, local_id]` (R96), the bytes after the code. -/
def decodeInit : List Byte → Decoded
  | id :: rest => .ok (.init id, rest)
  | [] => .error .truncated

/-- SEND: `[0x01, L[7:0], L[15:8], b[0], …, b[L−1]]` (R96), the bytes after the code. -/
def decodeSend : List Byte → Decoded
  | lo :: hi :: rest =>
    if rest.length < (le16 lo hi).toNat then .error .truncated
    else .ok (.send (rest.take (le16 lo hi).toNat), rest.drop (le16 lo hi).toNat)
  | _ => .error .truncated

/-- RECV: `[0x02, max_size[7:0], max_size[15:8]]` (R96), the bytes after the code. -/
def decodeRecv : List Byte → Decoded
  | lo :: hi :: rest => .ok (.recv (le16 lo hi), rest)
  | _ => .error .truncated

/-- FRAME_RECEIVED: `[0x03, id[7:0], {00000, id[10:8]}, {0000, dlc[3:0]}, data[0], …, data[7]]` (R96), the bytes
after the code, with the operand checks of R99. -/
def decodeFrameReceived : List Byte → Decoded
  | idLo :: idHi :: dlc :: d0 :: d1 :: d2 :: d3 :: d4 :: d5 :: d6 :: d7 :: rest =>
    if 8 ≤ idHi.toNat then .error .idTooWide
    else if 16 ≤ dlc.toNat then .error .dlcTooWide
    else .ok (.frameReceived (mkid (idHi.setWidth 3) idLo) (dlc.setWidth 4)
                { d0 := d0, d1 := d1, d2 := d2, d3 := d3, d4 := d4, d5 := d5, d6 := d6, d7 := d7 }, rest)
  | _ => .error .truncated

/-- The command decoder, total on any bytes: the operation at the front of `bytes` and the bytes after it. A first
byte 0x06 to 0xFF is a reserved code (R97); every other command has the length of its format (R96). -/
def decodeCommand : List Byte → Decoded
  | [] => .error .truncated
  | code :: rest =>
    match code.toNat with
    | 0 => decodeInit rest
    | 1 => decodeSend rest
    | 2 => decodeRecv rest
    | 3 => decodeFrameReceived rest
    | 4 => .ok (.frameSent, rest)
    | 5 => .ok (.dispatch, rest)
    | _ => .ok (.reservedCmd code, rest)

/-- The frame decoder: every frame is a frame of its kind (R82, R90: "no frame fails to decode"). -/
def decodeFrame (f : Frame) : Instr :=
  match (kindOf f.id).toNat with
  | 0 => .rxSingle (srcOf f.id) f.dlc f.data
  | 1 => .rxFirst (srcOf f.id) f.dlc f.data
  | 2 => .rxCont (srcOf f.id) f.dlc f.data
  | _ => .rxReservedKind (kindOf f.id) (srcOf f.id) f.dlc f.data

/-- The operation at the front of an arrival, and what of the arrival is left. -/
def decode : Arrival → Decoded
  | .command bytes => decodeCommand bytes
  | .frame f => .ok (decodeFrame f, [])

/-- The inbox after the first command of its head arrival is taken: the bytes left over come first. -/
def pendingAfter (left : List Byte) (rest : List Arrival) : List Arrival :=
  if left.isEmpty then rest else .command left :: rest

/-! ## The encoder -/

/-- The command bytes of an operation (R95, R96). The frame kinds have none: they arrive as frames. -/
def encodeCommand : Instr → List Byte
  | .init id => [0, id]
  | .send b => 1 :: lowByte (BitVec.ofNat 16 b.length) :: highByte (BitVec.ofNat 16 b.length) :: b
  | .recv m => [2, lowByte m, highByte m]
  | .frameReceived id dlc data =>
      [3, srcOf id, (kindOf id).setWidth 8, dlc.setWidth 8] ++ data.toList
  | .frameSent => [4]
  | .dispatch => [5]
  | .reservedCmd code => [code]
  | .rxSingle _ _ _ => []
  | .rxFirst _ _ _ => []
  | .rxCont _ _ _ => []
  | .rxReservedKind _ _ _ _ => []

/-- The arrival that stands for an operation: command bytes, or the frame itself (R82). -/
def encode : Instr → Arrival
  | .rxSingle src dlc data => .frame { id := mkid 0 src, dlc := dlc, data := data }
  | .rxFirst src dlc data => .frame { id := mkid 1 src, dlc := dlc, data := data }
  | .rxCont src dlc data => .frame { id := mkid 2 src, dlc := dlc, data := data }
  | .rxReservedKind kind src dlc data => .frame { id := mkid kind src, dlc := dlc, data := data }
  | i => .command (encodeCommand i)

/-! ## Words numbered as opcode_table.json numbers them -/

/-- A frame read from one number: the identifier in bits [10:0] as the table's CANID rows number it, then the
DLC, then the data bytes (log entry 6). -/
def frameOfBits (w : Nat) : Frame :=
  { id := BitVec.ofNat 11 w, dlc := BitVec.ofNat 4 (w / 2 ^ 11),
    data := Bytes8.ofList ((List.range 8).map fun k => BitVec.ofNat 8 (w / 2 ^ (15 + 8 * k))) }

/-- The bytes of a number, the first byte in bits [7:0]. -/
def bytesOfBits (n w : Nat) : List Byte := (List.range n).map fun k => BitVec.ofNat 8 (w / 2 ^ (8 * k))

/-- The first command in `bytes`, without what comes after it. -/
def firstCommand (bytes : List Byte) : List Byte :=
  match decodeCommand bytes with
  | .ok (_, rest) => bytes.take (bytes.length - rest.length)
  | .error _ => bytes

/-- A table word as an arrival: a row of 11 bits (two bytes) is an identifier, of format CANID; every other row is a
command, laid out byte after byte with zero bytes above it (log entry 6). -/
def tableArrival (nbits w : Nat) : Arrival :=
  if 8 < nbits ∧ nbits ≤ 16 then .frame (frameOfBits (w % 2 ^ nbits))
  else .command (firstCommand (bytesOfBits (max 12 (nbits / 8)) (w % 2 ^ nbits)))

/-- The instruction the decoder reads from a table word. -/
def decodeTableWord (nbits w : Nat) : Option Instr :=
  match decode (tableArrival nbits w) with
  | .ok (i, _) => some i
  | .error _ => none

/-! ## The textual syntax and the pseudo-operations -/

/-- A list of bytes in the notation of R100. -/
def bytesText (l : List Byte) : String :=
  "[" ++ String.intercalate ", " (l.map fun b => toString b.toNat) ++ "]"

/-- A FRAME_RECEIVED line of R100. -/
def frameText (id : BitVec 11) (dlc : BitVec 4) (data : Bytes8) : String :=
  "FRAME_RECEIVED " ++ toString id.toNat ++ ", " ++ toString dlc.toNat ++ ", " ++ bytesText data.toList

/-- An operation in the notation of R100. A frame kind is written as the FRAME_RECEIVED it stands for (R101), and a
reserved code, which has no syntax, as its byte. -/
def Instr.text : Instr → String
  | .init id => "INIT " ++ toString id.toNat
  | .send b => "SEND " ++ bytesText b
  | .recv m => "RECV " ++ toString m.toNat
  | .frameReceived id dlc data => frameText id dlc data
  | .frameSent => "FRAME_SENT"
  | .dispatch => "DISPATCH"
  | .reservedCmd code => toString code.toNat
  | .rxSingle src dlc data => frameText (mkid 0 src) dlc data
  | .rxFirst src dlc data => frameText (mkid 1 src) dlc data
  | .rxCont src dlc data => frameText (mkid 2 src) dlc data
  | .rxReservedKind kind src dlc data => frameText (mkid kind src) dlc data

/-- `SENDSEQ a, n` (R101). -/
def sendSeq (a n : Nat) : Instr := .send ((List.range n).map fun k => BitVec.ofNat 8 (a + k))

/-- `RX_SINGLE s, [b0..bk−1]` (R101). -/
def pseudoSingle (s : BitVec 8) (b : List Byte) : Instr :=
  .frameReceived (mkid 0 s) (BitVec.ofNat 4 b.length) (Bytes8.ofList b)

/-- `RX_FIRST s, T, [b0..bk−1]` (R101). -/
def pseudoFirst (s : BitVec 8) (total : Half) (b : List Byte) : Instr :=
  .frameReceived (mkid 1 s) (BitVec.ofNat 4 (b.length + 2)) (Bytes8.ofList (lowByte total :: highByte total :: b))

/-- `RX_CONT s, [b0..bk−1]` (R101). -/
def pseudoCont (s : BitVec 8) (b : List Byte) : Instr :=
  .frameReceived (mkid 2 s) (BitVec.ofNat 4 b.length) (Bytes8.ofList b)

/-- `LOOPBACK f` (R101): the driver delivers a frame the block sent back to the same block. -/
def loopback (f : Frame) : Instr := .frameReceived f.id f.dlc f.data

end Sys2Proof
end

