-- ==== Sys2Proof/Machine/State.lean ====
section
/-! DEFINITION. The state of the block (10_state.md R20 to R38), what it emits and answers, why a step can stop,
and the state at power-on (70_reset_and_hazards.md R260). -/

namespace Sys2Proof.Machine

/-- `ZERO_FRAME` (R24). -/
def zeroFrame : Frame := { id := 0, dlc := 0, data := ⟨0, 0, 0, 0, 0, 0, 0, 0⟩ }

/-- A slot of the transmit frame pool (R27). -/
structure PoolSlot where
  used  : Bool
  frame : Frame
deriving DecidableEq, Repr

/-- A free pool slot: `{used = 0, frame = ZERO_FRAME}` (R27). -/
def freeSlot : PoolSlot := { used := false, frame := zeroFrame }

/-- NSRC, the number of reassembly slots: one for each of the 2^8 sources (00_scope.md R8). -/
def numSources : Nat := 256

/-- A reassembly slot (R32). Its source tag is its index. -/
structure RxSlot where
  active : Bool
  total  : Half
  acc    : Half
  buf    : List Byte
deriving DecidableEq, Repr

/-- `IDLE_SLOT`: `{active = 0, total = 0, acc = 0, buf = zeros(M)}` (R32). -/
def idleSlot (maxMsg : Nat) : RxSlot := { active := false, total := 0, acc := 0, buf := zeros maxMsg }

/-- An entry of the Dispatch Queue (R34). -/
structure DqEntry where
  used  : Bool
  src   : BitVec 8
  len   : Half
  bytes : List Byte
deriving DecidableEq, Repr

/-- `FREE_ENTRY`: `{used = 0, src = 0, len = 0, bytes = zeros(M)}` (R34). -/
def freeEntry (maxMsg : Nat) : DqEntry := { used := false, src := 0, len := 0, bytes := zeros maxMsg }

/-- The receive-side drop causes (60_exceptions.md R231). -/
inductive RxCause where
  | oversize
  | orphanContinuation
  | dqFull
  | overrun
  | malformedDlc
  | malformedFirst
  | reservedKind
deriving DecidableEq, Repr

/-- The transmit-side drop causes (60_exceptions.md R230). -/
inductive TxCause where
  | messageTooLarge
  | poolExhausted
deriving DecidableEq, Repr

/-- The events on the outbound interface (00_scope.md R13). The cause of a drop is the model-only annotation that
R13 allows: the hardware notification carries nothing. -/
inductive Event where
  | sendFrame (f : Frame)
  | roomQuery (r : Bool)
  | rxDropped (cause : RxCause)
  | txDropped (cause : TxCause)
deriving DecidableEq, Repr

/-- What an operation returns to its caller (30_encoding.md R98). -/
inductive Result where
  /-- INIT, DISPATCH, FRAME_RECEIVED, FRAME_SENT: nothing. -/
  | none
  /-- SEND: a status byte. -/
  | status (code : Byte)
  /-- RECV: `(valid, copied, source, out)`. -/
  | response (valid : Bool) (copied : Half) (source : BitVec 8) (out : List Byte)
deriving DecidableEq, Repr

/-- The reasons the machine stops with a fault. There are none: "The block itself never faults or hangs" (R14),
"no operation traps" (60_exceptions.md R233), and 93_implementation_defined.md says of `fault`: "never used". The
type is empty, so that no definition of the model can answer one. Safe: nothing is claimed of a fault. -/
inductive Fault where
deriving DecidableEq, Repr

/-- The reasons a step is refused. A refused operation changes no state and emits no event (R14, R232). -/
inductive Refusal where
  /-- Raised only in `exec`, for an instruction that has no meaning in the model. No arm raises it. Safe. -/
  | notModelled (mnemonic : String)
  /-- Raised by every operation other than INIT before the first INIT (R232, R261). Safe: nothing is claimed of a
  run that uses the block before INIT. -/
  | notInitialised
  /-- Raised by a command whose first byte is 0x06 to 0xFF (R97, R232). Safe. -/
  | reservedCommand
  /-- Raised by a step whose command is no valid encoding: a field that does not fit its width, or a command shorter
  than its format (R99, R232). Safe. -/
  | invalidOperand
deriving DecidableEq, Repr

/-- The state. The first group is the block's own, R22 to R37, all of it; the second is the configuration; the
third stands for the environment and for what the block gives it (log entries 1, 3, 4, 7). -/
@[ext]
structure State where
  /-- R22. -/
  initDone   : Bool
  /-- R26. -/
  localId    : BitVec 8
  /-- R27: P slots. -/
  txPool     : List PoolSlot
  /-- R28: the slot of the next frame to dispatch. -/
  txRd       : Half
  /-- R28: the slot `acquire` takes next. -/
  txWr       : Half
  /-- R30. -/
  txInflight : Bool
  /-- R32: 256 slots, indexed by source. -/
  rs         : List RxSlot
  /-- R34: D entries. -/
  dq         : List DqEntry
  /-- R35: the oldest entry. -/
  dqRd       : Half
  /-- R35: the entry a completion writes next. -/
  dqWr       : Half
  /-- R37. -/
  rxDrops    : BitVec 32
  /-- R37. -/
  txDrops    : BitVec 32
  /-- MODEL. The open parameters P, M, D (R7, R41); no operation writes them. -/
  cfg         : Config
  /-- MODEL. The operations still to come, in the order in which they are served (R15, R66). -/
  inbox       : List Arrival
  /-- MODEL. The driver's answers to the room queries to come (R141). -/
  roomAnswers : List Bool
  /-- MODEL. How many free room answers have been drawn. -/
  roomDraws   : Nat
  /-- MODEL. The events emitted so far, oldest first (R13, R66). No operation reads them. -/
  trace       : List Event
  /-- MODEL. What the last operation returned (R21, R98). No operation reads it. -/
  result      : Result
deriving DecidableEq, Repr

/-- The three outcomes of an operation (R14). -/
abbrev Outcome := Host.Outcome State Fault Refusal

/-- The block at power-on (R260), for any configuration and any value of the unspecified `local_id`. -/
def State.powerOn (cfg : Config) (localId : BitVec 8) : State :=
  { initDone := false
    localId := localId
    txPool := List.replicate cfg.poolFrames freeSlot
    txRd := 0
    txWr := 0
    txInflight := false
    rs := List.replicate numSources (idleSlot cfg.maxMsg)
    dq := List.replicate cfg.dqDepth (freeEntry cfg.maxMsg)
    dqRd := 0
    dqWr := 0
    rxDrops := 0
    txDrops := 0
    cfg := cfg
    inbox := []
    roomAnswers := []
    roomDraws := 0
    trace := []
    result := .none }

/-- The machine right after reset: the power-on state (R260) of the test vectors' configuration (DESIGN CHOICE, log
entry 2), with `local_id`, which R260 leaves unspecified, at zero (DESIGN CHOICE, log entry 8). -/
def State.reset : State := State.powerOn Config.testVectors 0

end Sys2Proof.Machine
end

