-- ==== Sys2Proof/Machine/Operands.lean ====
section
/-! DEFINITION. The operand forms: byte subsequences, a frame's payload and length header, the segmentation of a
message into frames (41_segmenter.md R130 to R132; 30_encoding.md R84 to R89), and the codes and bytes that the
block answers with (30_encoding.md R98; 60_exceptions.md R230, R231). -/

namespace Sys2Proof.Machine

/-- `b[i..j)`, empty when j ≤ i (00_scope.md R11). -/
def slice (b : List Byte) (i j : Nat) : List Byte := (b.take j).drop i

/-- The declared total T of a FIRST frame: `data[0] + 256·data[1]` (R84). -/
def headerTotal (data : Bytes8) : Half := le16 data.d0 data.d1

/-- `data[i..dlc)`, the payload of a frame that starts at data byte i (R84, R85, R86). -/
def payloadFrom (i : Nat) (dlc : BitVec 4) (data : Bytes8) : List Byte := slice data.toList i dlc.toNat

/-- `nframes(L)`, the number of frames a message of L bytes needs (R130). The division rounds up. -/
def nframes (len : Nat) : Nat := if len ≤ 8 then 1 else 1 + (len - 6 + 7) / 8

/-- `Lcap(P)`, the longest message that P pool slots can hold (00_scope.md R9). -/
def capacity (poolFrames : Nat) : Nat := if poolFrames = 1 then 8 else 6 + 8 * (poolFrames - 1)

/-- The one frame of a message of at most 8 bytes (R89). -/
def singleFrame (b : List Byte) (s : BitVec 8) : Frame :=
  { id := mkid 0 s, dlc := BitVec.ofNat 4 b.length, data := Bytes8.ofList b }

/-- F0 of a longer message: the length header and the first 6 bytes (R89). -/
def firstFrame (b : List Byte) (s : BitVec 8) : Frame :=
  { id := mkid 1 s, dlc := 8,
    data := Bytes8.ofList (lowByte (BitVec.ofNat 16 b.length) :: highByte (BitVec.ofNat 16 b.length) :: slice b 0 6) }

/-- Fk, k ≥ 1, of a longer message: bytes `lo = 6 + 8·(k − 1)` to `hi = min(L, 6 + 8·k)` (R89). -/
def contFrame (b : List Byte) (s : BitVec 8) (k : Nat) : Frame :=
  { id := mkid 2 s, dlc := BitVec.ofNat 4 (min b.length (6 + 8 * k) - (6 + 8 * (k - 1))),
    data := Bytes8.ofList (slice b (6 + 8 * (k - 1)) (min b.length (6 + 8 * k))) }

/-- `segment(b, s)`, the frames of message b from source s in production order (R89, R132). -/
def segment (b : List Byte) (s : BitVec 8) : List Frame :=
  if b.length ≤ 8 then [singleFrame b s]
  else firstFrame b s :: (List.range (nframes b.length - 1)).map fun j => contFrame b s (j + 1)

/-- A message is too large (R131): `L > M ∨ nframes(L) > P`. -/
def tooLarge (cfg : Config) (len : Nat) : Bool :=
  decide (cfg.maxMsg < len) || decide (cfg.poolFrames < nframes len)

/-- SEND's status code for a rejection (R98, R230). -/
def TxCause.status : TxCause → Byte
  | .messageTooLarge => 0x01
  | .poolExhausted => 0x02

/-- SEND's status code for an accepted message (R98, R230). -/
def statusAccepted : Byte := 0x00

/-- The model-only code of a receive-side cause (R231). -/
def RxCause.code : RxCause → Nat
  | .oversize => 1
  | .orphanContinuation => 2
  | .dqFull => 3
  | .overrun => 4
  | .malformedDlc => 5
  | .malformedFirst => 6
  | .reservedKind => 7

/-- The bytes the block returns to the caller (R98). -/
def Result.bytes : Result → List Byte
  | .none => []
  | .status code => [code]
  | .response valid copied source out =>
      (if valid then 1 else 0) :: lowByte copied :: highByte copied :: source :: out

/-- The interface on which each operation arrives (00_scope.md R15; R95). The block does not enforce it
(60_exceptions.md R241), and a reserved code has none. -/
def interfaceOf : Instr → Option Interface
  | .init _ => some .application
  | .send _ => some .application
  | .recv _ => some .application
  | .frameReceived _ _ _ => some .interrupt
  | .frameSent => some .interrupt
  | .dispatch => some .application
  | .reservedCmd _ => none
  | .rxSingle _ _ _ => some .interrupt
  | .rxFirst _ _ _ => some .interrupt
  | .rxCont _ _ _ => some .interrupt
  | .rxReservedKind _ _ _ _ => some .interrupt

end Sys2Proof.Machine
end

