-- ==== Sys2Proof/Machine/Flags.lean ====
section
/-! DEFINITION. Reading the arrays, and the flags and derived values that are functions of the state and not stored
in it (10_state.md R29, R31, R36, R39). The block has no condition-code register. -/

namespace Sys2Proof.Machine

/-- `S.tx_pool[i]`. An index outside the pool, which no reachable state holds, reads as a free slot. -/
def State.poolSlot (s : State) (i : Nat) : PoolSlot := s.txPool.getD i freeSlot

/-- `S.rs[src]`. -/
def State.rxSlot (s : State) (src : BitVec 8) : RxSlot := s.rs.getD src.toNat (idleSlot s.cfg.maxMsg)

/-- `S.dq[j]`. An index outside the queue, which no reachable state holds, reads as a free entry. -/
def State.dqEntry (s : State) (j : Nat) : DqEntry := s.dq.getD j (freeEntry s.cfg.maxMsg)

/-- `tx_count`, the number of frames queued (R29). -/
def txCount (s : State) : Nat := s.txPool.countP PoolSlot.used

/-- `tx_free = P − tx_count` (R29). -/
def txFree (s : State) : Nat := s.cfg.poolFrames - txCount s

/-- `tx_empty = (S.tx_pool[S.tx_rd].used = 0)` (R29). -/
def txEmpty (s : State) : Bool := !(s.poolSlot s.txRd.toNat).used

/-- `tx_full = (S.tx_pool[S.tx_wr].used = 1)` (R29). -/
def txFull (s : State) : Bool := (s.poolSlot s.txWr.toNat).used

/-- `dq_count` (R36). -/
def dqCount (s : State) : Nat := s.dq.countP DqEntry.used

/-- `dq_empty = (S.dq[S.dq_rd].used = 0)` (R36). -/
def dqEmpty (s : State) : Bool := !(s.dqEntry s.dqRd.toNat).used

/-- `dq_full = (S.dq[S.dq_wr].used = 1)` (R36). -/
def dqFull (s : State) : Bool := (s.dqEntry s.dqWr.toNat).used

/-- The segmenter statuses of R31. -/
inductive TxStatus where
  | idle
  | ready
  | waitSent
deriving DecidableEq, Repr

/-- The segmenter status, derived from the in-flight bit and the count (R31). -/
def txStatus (s : State) : TxStatus :=
  if s.txInflight then .waitSent else if txCount s = 0 then .idle else .ready

end Sys2Proof.Machine
end

