-- ==== Sys2Proof/Machine/Ops.lean ====
section
/-! DEFINITION. The named operations that the meanings share: byte buffers, events and drop accounting
(44_init_accounting.md R214, R215), the frame pool (40_frame_pool.md), the dispatch step (41_segmenter.md R140) and
the Dispatch Queue (43_dispatch_queue.md).

The block has no trap mechanism: "There is no trap entry and no trap return" (60_exceptions.md R236). Its only
error-reporting mechanism besides SEND's status is drop accounting, so `dropRx` and `dropTx` stand where another
machine's exception entry would, and there is no return from one. -/

namespace Sys2Proof.Machine

/-! ## Byte buffers -/

/-- `MemRead(buf, off, n)` returns `buf[off..off+n)` (00_scope.md R12). -/
def memRead (buf : List Byte) (off n : Nat) : List Byte := slice buf off (off + n)

/-- `MemWrite(buf, off, n, v)` writes the n bytes of v into `buf[off..off+n)` (R12). -/
def memWrite (buf : List Byte) (off : Nat) (v : List Byte) : List Byte :=
  buf.take off ++ v ++ buf.drop (off + v.length)

/-! ## Completing and refusing -/

/-- The operation ends with its result (R12, R98). -/
def finish (r : Result) (s : State) : Outcome := .next { s with result := r }

/-- Every operation other than INIT is refused while `S.init_done = 0` (70_reset_and_hazards.md R261). -/
def whenInitialised (s : State) (run : Outcome) : Outcome :=
  if s.initDone then run else .refused .notInitialised

/-! ## Events and drop accounting -/

/-- `emit E` (R12, R13). -/
def State.emit (e : Event) (s : State) : State := { s with trace := s.trace ++ [e] }

/-- `drop_rx(cause)` (R214). -/
def State.dropRx (cause : RxCause) (s : State) : State :=
  ({ s with rxDrops := s.rxDrops + 1 } : State).emit (.rxDropped cause)

/-- `drop_tx(cause)` (R215). -/
def State.dropTx (cause : TxCause) (s : State) : State :=
  ({ s with txDrops := s.txDrops + 1 } : State).emit (.txDropped cause)

/-! ## Indices -/

/-- `(i + 1) mod n`, the step of every ring index (R111, R113, R190, R193). -/
def nextIndex (n : Nat) (i : Half) : Half := BitVec.ofNat 16 ((i.toNat + 1) % n)

/-! ## The frame pool -/

/-- `S.tx_pool[i] <- v`. -/
def State.setPoolSlot (i : Nat) (v : PoolSlot) (s : State) : State := { s with txPool := s.txPool.set i v }

/-- `acquire()` (R111): the slot taken and the state after, or nothing (`PoolExhausted`) when the slot at `tx_wr`
is in use. -/
def acquire (s : State) : Option (Nat × State) :=
  let i := s.txWr.toNat
  if (s.poolSlot i).used then none
  else some (i, { s.setPoolSlot i { s.poolSlot i with used := true } with txWr := nextIndex s.cfg.poolFrames s.txWr })

/-- `release(i)` (R112). -/
def release (i : Nat) (s : State) : State := s.setPoolSlot i freeSlot

/-- `release_head()` (R113): the oldest queued frame, and the state after. -/
def releaseHead (s : State) : Frame × State :=
  let i := s.txRd.toNat
  ((s.poolSlot i).frame, { release i s with txRd := nextIndex s.cfg.poolFrames s.txRd })

/-- `can_acquire(n)` (R115). -/
def canAcquire (n : Nat) (s : State) : Bool := decide (n ≤ txFree s)

/-- `i = acquire(); S.tx_pool[i].frame <- F` (R133). An `acquire` that fails writes nothing (R111); after
`can_acquire` it does not fail (R115; log entry 9). -/
def storeFrame (s : State) (f : Frame) : State :=
  match acquire s with
  | none => s
  | some (i, t) => t.setPoolSlot i { t.poolSlot i with frame := f }

/-- The loop of R133: the frames are stored one after the other, in production order. -/
def storeFrames (s : State) (fs : List Frame) : State := fs.foldl storeFrame s

/-! ## Frame dispatch -/

/-- The driver's answer to the next room query (R141): the one the environment has laid down, else a free value. -/
def roomAnswer (s : State) : Bool := s.roomAnswers.headD (Config.freeRoomAnswer s.roomDraws)

/-- `room_available()`: the query consumes exactly one answer and is an event (R140). -/
def queryRoom (s : State) : State :=
  { s with
    roomAnswers := s.roomAnswers.tail
    roomDraws := if s.roomAnswers.isEmpty then s.roomDraws + 1 else s.roomDraws }.emit (.roomQuery (roomAnswer s))

/-- The end of R140: the head frame leaves the pool, is in flight, and is handed to the driver. -/
def handOver (s : State) : State :=
  let (f, t) := releaseHead s
  ({ t with txInflight := true } : State).emit (.sendFrame f)

/-- `try_dispatch()` (R140). -/
def tryDispatch (s : State) : State :=
  if s.txInflight || txEmpty s then s
  else if roomAnswer s then handOver (queryRoom s)
  else queryRoom s

/-! ## Reassembly slots and the Dispatch Queue -/

/-- `S.rs[src] <- v`. -/
def State.setRxSlot (src : BitVec 8) (v : RxSlot) (s : State) : State := { s with rs := s.rs.set src.toNat v }

/-- `S.rs[src] <- IDLE_SLOT` (42_reassembler.md R163). -/
def State.idleRxSlot (src : BitVec 8) (s : State) : State := s.setRxSlot src (idleSlot s.cfg.maxMsg)

/-- `S.dq[j] <- v`. -/
def State.setDqEntry (j : Nat) (v : DqEntry) (s : State) : State := { s with dq := s.dq.set j v }

/-- The entry of a completed message: `{used = 1, src = s, len = |m|, bytes = m ++ zeros(M − |m|)}` (R190). -/
def messageEntry (maxMsg : Nat) (src : BitVec 8) (m : List Byte) : DqEntry :=
  { used := true, src := src, len := BitVec.ofNat 16 m.length, bytes := m ++ zeros (maxMsg - m.length) }

/-- `dq_push(s, m)` (R190, R191). -/
def dqPush (src : BitVec 8) (m : List Byte) (s : State) : State :=
  if dqFull s then s.dropRx .dqFull
  else { s.setDqEntry s.dqWr.toNat (messageEntry s.cfg.maxMsg src m) with dqWr := nextIndex s.cfg.dqDepth s.dqWr }

/-- `dq_pop()` (R193): the oldest entry, and the state after. -/
def dqPop (s : State) : DqEntry × State :=
  let j := s.dqRd.toNat
  (s.dqEntry j, { s.setDqEntry j (freeEntry s.cfg.maxMsg) with dqRd := nextIndex s.cfg.dqDepth s.dqRd })

end Sys2Proof.Machine
end

