-- ==== Sys2Proof/Machine/Accounting.lean ====
section
/-! DEFINITION. INIT and the reserved command codes (44_init_accounting.md R210; 30_encoding.md R97). -/

namespace Sys2Proof.Machine

/-- INIT (R210). It is accepted in every state, emits no event and returns nothing. -/
def execInit (id : BitVec 8) (s : State) : Outcome :=
  finish .none { s with
    localId := id
    txPool := List.replicate s.cfg.poolFrames freeSlot
    txRd := 0
    txWr := 0
    txInflight := false
    rs := List.replicate numSources (idleSlot s.cfg.maxMsg)
    dq := List.replicate s.cfg.dqDepth (freeEntry s.cfg.maxMsg)
    dqRd := 0
    dqWr := 0
    rxDrops := 0
    txDrops := 0
    initDone := true }

/-- A reserved command code, 0x06 to 0xFF: "They encode no operation: a model refuses such a command, it changes no
state and it emits no event" (R97). -/
def execReservedCmd (_code : Byte) (_s : State) : Outcome := .refused .reservedCommand

end Sys2Proof.Machine
end

