-- ==== Sys2Proof/Machine/Reassembler.lean ====
section
/-! DEFINITION. The reassembler (42_reassembler.md): FRAME_RECEIVED and the frame kinds. -/

namespace Sys2Proof.Machine

/-- `complete(s, m)` (R170). -/
def complete (src : BitVec 8) (m : List Byte) (s : State) : State := dqPush src m s

/-- `rx_single(s, dlc, data)` (R162). -/
def receiveSingle (src : BitVec 8) (dlc : BitVec 4) (data : Bytes8) (s : State) : State :=
  let s := s.idleRxSlot src
  if s.cfg.maxMsg < dlc.toNat then s.dropRx .oversize
  else complete src (payloadFrom 0 dlc data) s

/-- `rx_first(s, dlc, data)` (R163, R164, R165). -/
def receiveFirst (src : BitVec 8) (dlc : BitVec 4) (data : Bytes8) (s : State) : State :=
  let s := s.idleRxSlot src
  let total := headerTotal data
  let k := dlc.toNat - 2
  if dlc.toNat < 2 then s.dropRx .malformedFirst
  else if s.cfg.maxMsg < total.toNat then s.dropRx .oversize
  else if total.toNat < k then s.dropRx .overrun
  else if k = total.toNat then complete src (payloadFrom 2 dlc data) s
  else s.setRxSlot src
    { active := true, total := total, acc := BitVec.ofNat 16 k,
      buf := payloadFrom 2 dlc data ++ zeros (s.cfg.maxMsg - k) }

/-- `rx_cont(s, dlc, data)` (R166 to R169). -/
def receiveCont (src : BitVec 8) (dlc : BitVec 4) (data : Bytes8) (s : State) : State :=
  let slot := s.rxSlot src
  let a := slot.acc.toNat
  let total := slot.total.toNat
  let buf := memWrite slot.buf a (payloadFrom 0 dlc data)
  if !slot.active then s.dropRx .orphanContinuation
  else if total < a + dlc.toNat then (s.idleRxSlot src).dropRx .overrun
  else if a + dlc.toNat = total then complete src (memRead buf 0 total) (s.idleRxSlot src)
  else s.setRxSlot src { slot with acc := BitVec.ofNat 16 (a + dlc.toNat), buf := buf }

/-- FRAME_RECEIVED (R160): classify, then the rule of the class. -/
def execFrameReceived (id : BitVec 11) (dlc : BitVec 4) (data : Bytes8) (s : State) : Outcome :=
  whenInitialised s <| finish .none <|
    match classify id dlc with
    | .malformedDlc => s.dropRx .malformedDlc
    | .single => receiveSingle (srcOf id) dlc data s
    | .first => receiveFirst (srcOf id) dlc data s
    | .cont => receiveCont (srcOf id) dlc data s
    | .reserved => s.dropRx .reservedKind

/-- A received frame with dlc > 8 is dropped before its kind is acted on (R161, R240). -/
def withLegalDlc (dlc : BitVec 4) (s : State) (run : State) : State :=
  if 8 < dlc.toNat then s.dropRx .malformedDlc else run

/-- RX_SINGLE: a received frame of kind 0 (R162). -/
def execRxSingle (src : BitVec 8) (dlc : BitVec 4) (data : Bytes8) (s : State) : Outcome :=
  whenInitialised s <| finish .none <| withLegalDlc dlc s (receiveSingle src dlc data s)

/-- RX_FIRST: a received frame of kind 1 (R165). -/
def execRxFirst (src : BitVec 8) (dlc : BitVec 4) (data : Bytes8) (s : State) : Outcome :=
  whenInitialised s <| finish .none <| withLegalDlc dlc s (receiveFirst src dlc data s)

/-- RX_CONT: a received frame of kind 2 (R168). -/
def execRxCont (src : BitVec 8) (dlc : BitVec 4) (data : Bytes8) (s : State) : Outcome :=
  whenInitialised s <| finish .none <| withLegalDlc dlc s (receiveCont src dlc data s)

/-- RX_RESERVED_KIND: a received frame of kind 3 to 7. No slot is touched (R172). -/
def execRxReservedKind (_kind : BitVec 3) (_src : BitVec 8) (dlc : BitVec 4) (_data : Bytes8) (s : State) : Outcome :=
  whenInitialised s <| finish .none <| withLegalDlc dlc s (s.dropRx .reservedKind)

end Sys2Proof.Machine
end

