-- ==== Sys2Proof/Machine/Receive.lean ====
section
/-! DEFINITION. The receive entry point (43_dispatch_queue.md): RECV. -/

namespace Sys2Proof.Machine

/-- What RECV returns of a popped entry: `c = min(e.len, max_size)` bytes from index 0, and its source (R194). -/
def responseOf (e : DqEntry) (maxSize : Half) : Result :=
  let c := min e.len.toNat maxSize.toNat
  .response true (BitVec.ofNat 16 c) e.src (slice e.bytes 0 c)

/-- RECV (R194). On an empty queue it returns `(0, 0, 0, [])` and writes no state (R195). -/
def execRecv (maxSize : Half) (s : State) : Outcome :=
  whenInitialised s <|
    if dqEmpty s then finish (.response false 0 0 []) s
    else
      let (e, t) := dqPop s
      finish (responseOf e maxSize) t

end Sys2Proof.Machine
end

