-- ==== Sys2Proof/Machine/Segmenter.lean ====
section
/-! DEFINITION. The transmit side (41_segmenter.md): SEND, FRAME_SENT and DISPATCH. -/

namespace Sys2Proof.Machine

/-- A rejected SEND (R133, R135): the drop is counted and notified, and nothing else is written. -/
def rejectSend (cause : TxCause) (s : State) : Outcome := finish (.status cause.status) (s.dropTx cause)

/-- SEND (R133, R134): too large is checked before pool room; an accepted message is stored whole, and then
`try_dispatch` runs. -/
def execSend (b : List Byte) (s : State) : Outcome :=
  whenInitialised s <|
    if tooLarge s.cfg b.length then rejectSend .messageTooLarge s
    else if canAcquire (nframes b.length) s then
      finish (.status statusAccepted) (tryDispatch (storeFrames s (segment b s.localId)))
    else rejectSend .poolExhausted s

/-- FRAME_SENT (R142). With nothing in flight it is spurious, and ignored (R143). -/
def execFrameSent (s : State) : Outcome :=
  whenInitialised s <|
    if s.txInflight then finish .none (tryDispatch { s with txInflight := false })
    else finish .none s

/-- DISPATCH (R144). -/
def execDispatch (s : State) : Outcome := whenInitialised s <| finish .none (tryDispatch s)

end Sys2Proof.Machine
end

