-- ==== Sys2Proof/Machine/Dispatch.lean ====
section
/-! DEFINITION. The meaning of every operation: one arm per constructor of Instr. -/

namespace Sys2Proof.Machine

/-- One operation on the state (00_scope.md R6, R14). -/
def exec (i : Instr) (s : State) : Host.Outcome State Fault Refusal :=
  match i with
  | .init id => Sys2Proof.Machine.execInit id s
  | .send b => Sys2Proof.Machine.execSend b s
  | .recv maxSize => Sys2Proof.Machine.execRecv maxSize s
  | .frameReceived id dlc data => Sys2Proof.Machine.execFrameReceived id dlc data s
  | .frameSent => Sys2Proof.Machine.execFrameSent s
  | .dispatch => Sys2Proof.Machine.execDispatch s
  | .reservedCmd code => Sys2Proof.Machine.execReservedCmd code s
  | .rxSingle src dlc data => Sys2Proof.Machine.execRxSingle src dlc data s
  | .rxFirst src dlc data => Sys2Proof.Machine.execRxFirst src dlc data s
  | .rxCont src dlc data => Sys2Proof.Machine.execRxCont src dlc data s
  | .rxReservedKind kind src dlc data => Sys2Proof.Machine.execRxReservedKind kind src dlc data s

end Sys2Proof.Machine
end

