-- ==== Sys2Proof/Machine/Step.lean ====
section
/-! DEFINITION. One step of the machine: the next operation that arrives is decoded and run (00_scope.md R6, R15). -/

namespace Sys2Proof.Machine

/-- Serve the arrival at the head of the inbox. With nothing to serve, the block holds its state (60_exceptions.md
R246). A command that is no valid encoding is refused (R99). What is left of a command arrival after its first
command stays at the head of the inbox (log entry 5). -/
def step (s : State) : Host.Outcome State Fault Refusal :=
  match s.inbox with
  | [] => .next s
  | a :: rest =>
    match decode a with
    | .error _ => .refused .invalidOperand
    | .ok (i, left) => exec i { s with inbox := pendingAfter left rest }

/-- `s` with a table word as the next arrival, so that the very next step decodes and runs it (log entry 6). -/
def State.withFetchWord (s : State) (nbits w : Nat) : State :=
  { s with inbox := tableArrival nbits w :: s.inbox }

end Sys2Proof.Machine
end

