-- ==== Sys2Proof/Safety.lean ====
section
/-! DEFINITION. The terms claims are stated in: the two rings and their contents as queues (40_frame_pool.md R114,
43_dispatch_queue.md R192), the invariant of the state, what one dispatch step and one delivery do to the queues, and
the duties of the environment that make a run a safe one (60_exceptions.md R247). -/

namespace Sys2Proof.Machine

/-! ## Rings -/

/-- The ring invariant of R114 and R192 over an array `xs` of n places with read index `rd` and write index `wr`:
with c the number of used places, the used places are the c places from `rd` on (mod n), and `wr` is the place
after them. -/
abbrev Ring {α : Type} (used : α → Bool) (d : α) (xs : List α) (n rd wr : Nat) : Prop :=
  xs.length = n ∧ rd < n ∧ wr < n ∧ wr = (rd + xs.countP used) % n ∧
    ∀ i, i < n → (used (xs.getD i d) = true ↔ (i + n - rd) % n < xs.countP used)

/-- The used places of a ring from the oldest on. -/
def ringContents {α : Type} (used : α → Bool) (d : α) (xs : List α) (n rd : Nat) : List α :=
  (List.range (xs.countP used)).map fun k => xs.getD ((rd + k) % n) d

/-- The pool invariant (R114). -/
abbrev PoolRing (s : State) : Prop :=
  Ring PoolSlot.used freeSlot s.txPool s.cfg.poolFrames s.txRd.toNat s.txWr.toNat

/-- The queue invariant (R192). -/
abbrev DqRing (s : State) : Prop :=
  Ring DqEntry.used (freeEntry s.cfg.maxMsg) s.dq s.cfg.dqDepth s.dqRd.toNat s.dqWr.toNat

/-- The queued frames in production order (R114). -/
def queuedFrames (s : State) : List Frame :=
  (ringContents PoolSlot.used freeSlot s.txPool s.cfg.poolFrames s.txRd.toNat).map PoolSlot.frame

/-- The message a Dispatch Queue entry holds: its source and its `len` bytes (R34). -/
def DqEntry.message (e : DqEntry) : BitVec 8 × List Byte := (e.src, slice e.bytes 0 e.len.toNat)

/-- The queued messages in completion order (R192). -/
def queuedMessages (s : State) : List (BitVec 8 × List Byte) :=
  (ringContents DqEntry.used (freeEntry s.cfg.maxMsg) s.dq s.cfg.dqDepth s.dqRd.toNat).map DqEntry.message

/-! ## The invariant -/

/-- A frame as the block builds it (R24, R87): `dlc ≤ 8`, and zero bytes from `dlc` on. -/
abbrev FrameBuilt (f : Frame) : Prop :=
  f.dlc.toNat ≤ 8 ∧ slice f.data.toList f.dlc.toNat 8 = zeros (8 - f.dlc.toNat)

/-- A pool slot of a node with identity `localId`: a free slot is cleared (R27); a queued frame is one the block
built, of kind SINGLE, FIRST or CONT (R82), and its source field is the node's (R132). -/
abbrev PoolSlotOk (localId : BitVec 8) (p : PoolSlot) : Prop :=
  if p.used then FrameBuilt p.frame ∧ srcOf p.frame.id = localId ∧ (kindOf p.frame.id).toNat ≤ 2
  else p.frame = zeroFrame

/-- A reassembly slot (R32, R33): the buffer holds M bytes; an active slot has `acc < total ≤ M` and zero bytes from
`acc` on; an inactive slot is idle. -/
abbrev RxSlotOk (maxMsg : Nat) (r : RxSlot) : Prop :=
  r.buf.length = maxMsg ∧
    if r.active then r.acc.toNat < r.total.toNat ∧ r.total.toNat ≤ maxMsg ∧
      r.buf.drop r.acc.toNat = zeros (maxMsg - r.acc.toNat)
    else r = idleSlot maxMsg

/-- A Dispatch Queue entry (R34): the buffer holds M bytes; a used entry has `len ≤ M` and zero bytes from `len` on;
an unused entry is free. -/
abbrev DqEntryOk (maxMsg : Nat) (e : DqEntry) : Prop :=
  e.bytes.length = maxMsg ∧
    if e.used then e.len.toNat ≤ maxMsg ∧ e.bytes.drop e.len.toNat = zeros (maxMsg - e.len.toNat)
    else e = freeEntry maxMsg

/-- The invariant of the state: a legal configuration (R7), the two rings (R114, R192), and every slot and entry as
R27, R33 and R34 have it. -/
abbrev State.Inv (s : State) : Prop :=
  s.cfg.Legal ∧ PoolRing s ∧ DqRing s ∧ s.rs.length = 256 ∧
    (∀ p ∈ s.txPool, PoolSlotOk s.localId p) ∧
    (∀ r ∈ s.rs, RxSlotOk s.cfg.maxMsg r) ∧
    (∀ e ∈ s.dq, DqEntryOk s.cfg.maxMsg e)

/-- The block's own state, R22 to R37, is the same in two states. -/
abbrev SameBlock (s t : State) : Prop :=
  s.initDone = t.initDone ∧ s.localId = t.localId ∧ s.txPool = t.txPool ∧ s.txRd = t.txRd ∧ s.txWr = t.txWr ∧
    s.txInflight = t.txInflight ∧ s.rs = t.rs ∧ s.dq = t.dq ∧ s.dqRd = t.dqRd ∧ s.dqWr = t.dqWr ∧
    s.rxDrops = t.rxDrops ∧ s.txDrops = t.txDrops ∧ s.cfg = t.cfg

/-! ## What a step does to the queues -/

/-- `t` took one room answer of `s`: the first that is laid down, else the next free value (R140, R141). -/
abbrev TookOneAnswer (s t : State) : Prop :=
  t.roomAnswers = s.roomAnswers.tail ∧
    t.roomDraws = if s.roomAnswers = [] then s.roomDraws + 1 else s.roomDraws

/-- One dispatch step from `s` to `t`, with `q` the frames queued before it (R140). With a frame in flight or none
queued, nothing happens and nothing is asked. Else the driver is asked once; on a true answer the oldest frame leaves
the queue, is in flight and is handed over; on a false answer it stays. -/
def DispatchStep (q : List Frame) (s t : State) : Prop :=
  if s.txInflight = true ∨ q = [] then
    queuedFrames t = q ∧ t.txInflight = s.txInflight ∧ t.trace = s.trace ∧
      t.roomAnswers = s.roomAnswers ∧ t.roomDraws = s.roomDraws
  else if roomAnswer s = true then
    TookOneAnswer s t ∧ t.txInflight = true ∧
      ∃ f, q = f :: queuedFrames t ∧ t.trace = s.trace ++ [.roomQuery true, .sendFrame f]
  else
    TookOneAnswer s t ∧ t.txInflight = false ∧ queuedFrames t = q ∧ t.trace = s.trace ++ [.roomQuery false]

/-- The delivery of a completed message to the Dispatch Queue (R190, R191): it is queued last, or, with all D entries
used, it is dropped and counted and no entry changes. -/
def Delivery (src : BitVec 8) (m : List Byte) (s t : State) : Prop :=
  if dqCount s < s.cfg.dqDepth then
    queuedMessages t = queuedMessages s ++ [(src, m)] ∧ t.rxDrops = s.rxDrops ∧ t.trace = s.trace
  else
    t.dq = s.dq ∧ t.dqWr = s.dqWr ∧ t.rxDrops = s.rxDrops + 1 ∧ t.trace = s.trace ++ [.rxDropped .dqFull]

/-- The payload bytes of a frame by its kind: from data byte 2 on for FIRST, else from byte 0 on (R84 to R86). -/
def framePayload (f : Frame) : List Byte :=
  if kindOf f.id = 1 then payloadFrom 2 f.dlc f.data else payloadFrom 0 f.dlc f.data

/-- The operations of the transmit side (20_memory.md R72). -/
def isTransmit : Instr → Bool
  | .send _ => true
  | .frameSent => true
  | .dispatch => true
  | _ => false

/-- The operations of the receive side (R72). -/
def isReceive : Instr → Bool
  | .recv _ => true
  | .frameReceived _ _ _ => true
  | .rxSingle _ _ _ => true
  | .rxFirst _ _ _ => true
  | .rxCont _ _ _ => true
  | .rxReservedKind _ _ _ _ => true
  | _ => false

/-- The source field of the frame an operation receives. -/
def sourceOf : Instr → Option (BitVec 8)
  | .frameReceived id _ _ => some (srcOf id)
  | .rxSingle src _ _ => some src
  | .rxFirst src _ _ => some src
  | .rxCont src _ _ => some src
  | .rxReservedKind _ src _ _ => some src
  | _ => none

/-- An event that is a receive-side drop notification. -/
def Event.isRxDrop : Event → Bool
  | .rxDropped _ => true
  | _ => false

/-- An event that is a transmit-side drop notification. -/
def Event.isTxDrop : Event → Bool
  | .txDropped _ => true
  | _ => false

/-- An event that hands a frame to the driver. -/
def Event.isSendFrame : Event → Bool
  | .sendFrame _ => true
  | _ => false

/-- The frame an event hands to the driver. -/
def Event.handedOver : Event → Option Frame
  | .sendFrame f => some f
  | _ => none

/-- The length of a command by R96: fixed by the code, but for SEND, whose L field adds its value. -/
def formatLength (bytes : List Byte) : Nat :=
  match (bytes.getD 0 0).toNat with
  | 0 => 2
  | 1 => 3 + (le16 (bytes.getD 1 0) (bytes.getD 2 0)).toNat
  | 2 => 3
  | 3 => 12
  | _ => 1

/-! ## Safe runs -/

/-- The duties of R247 that an operation can break, by R263, R270 and R271: INIT comes first and not while a frame is
in flight, FRAME_SENT answers a SendFrame, and a reserved code is never sent. The block checks none of them. -/
def Dutiful (s : State) : Instr → Bool
  | .init _ => !s.txInflight
  | .reservedCmd _ => false
  | .frameSent => s.initDone && s.txInflight
  | .send _ => s.initDone
  | .recv _ => s.initDone
  | .dispatch => s.initDone
  | .frameReceived _ _ _ => s.initDone
  | .rxSingle _ _ _ => s.initDone
  | .rxFirst _ _ _ => s.initDone
  | .rxCont _ _ _ => s.initDone
  | .rxReservedKind _ _ _ _ => s.initDone

/-- Operations one after the other, as `exec` runs them. -/
def execAll : List Instr → State → Outcome
  | [], s => .next s
  | i :: is, s =>
    match exec i s with
    | .next t => execAll is t
    | .fault r => .fault r
    | .refused r => .refused r

/-- The frames that the SENDs of a run put into the pool, in acceptance order: those of each SEND that answers with the
status 0x00 (R133). -/
def acceptedFrames : List Instr → State → List Frame
  | [], _ => []
  | i :: is, s =>
    match exec i s with
    | .next t =>
      (match i, t.result with
        | .send b, .status c => if c = statusAccepted then segment b s.localId else []
        | _, _ => []) ++ acceptedFrames is t
    | .fault _ => []
    | .refused _ => []

/-- `SafeRun is s t`: the operations `is` run from `s` to `t`, and each of them keeps the duties where it is served. -/
inductive SafeRun : List Instr → State → State → Prop where
  | nil (s : State) : SafeRun [] s s
  | cons {i : Instr} {is : List Instr} {s t u : State} (duty : Dutiful s i = true)
      (run : exec i s = .next t) (rest : SafeRun is t u) : SafeRun (i :: is) s u

end Sys2Proof.Machine
end

