-- ==== Sys2Proof/Certificates/Slice0/Obligations.lean ====
section
/-! DEFINITION. The statements for the provers. Each docstring names the rules a statement formalises. -/

open Sys2Proof Sys2Proof.Machine

/-! ## Encoding -/

/-- R95, R96, R82: decoding the encoding of any well-formed operation gives the operation back, with every operand,
and a command is decoded from the front of any longer byte sequence. -/
def Obligations.DecodeOfEncodeIsIdentity : Prop :=
  (∀ i : Instr, i.wf = true → decode (encode i) = .ok (i, [])) ∧
    ∀ (i : Instr) (rest : List Byte), i.wf = true → i.isCommand = true →
      decodeCommand (encodeCommand i ++ rest) = .ok (i, rest)

/-- R82, R90, R95, R96: each command word has one meaning, and each frame is the encoding of the operation it is
decoded to. -/
def Obligations.EncodeOfDecodeIsIdentity : Prop :=
  (∀ (bytes : List Byte) (i : Instr) (rest : List Byte), decodeCommand bytes = .ok (i, rest) →
      i.wf = true ∧ i.isCommand = true ∧ bytes = encodeCommand i ++ rest) ∧
    ∀ f : Frame, (decodeFrame f).wf = true ∧ encode (decodeFrame f) = .frame f

/-- R99, R232: a command is refused as an invalid operand encoding exactly when it is shorter than its format (R96), or
is a FRAME_RECEIVED with one of bits [7:3] of byte 2 or of bits [7:4] of byte 3 set. Two things here are the model's and
no rule's: that the reason is InvalidOperand before the first INIT too, since no rule orders the reasons (log entry 11,
DEDUCED), and that bytes beyond the format are no ground, since they are taken for the next command (log entry 5,
DESIGN CHOICE). -/
def Obligations.InvalidOperandsRefused : Prop :=
  ∀ (s : State) (bytes : List Byte) (rest : List Arrival), s.inbox = .command bytes :: rest →
    (step s = .refused .invalidOperand ↔
      bytes.length < formatLength bytes ∨
        ((bytes.getD 0 0).toNat = 3 ∧ (8 ≤ (bytes.getD 2 0).toNat ∨ 16 ≤ (bytes.getD 3 0).toNat)))

/-- R95, R96, R82: command bytes and identifiers written out from the encoding tables decode to the operations they
stand for. -/
def Obligations.SpecWordsDecode : Prop :=
  decodeCommand [0x00, 0x05] = .ok (.init 5, []) ∧
    decodeCommand [0x01, 0x03, 0x00, 0xAA, 0xBB, 0xCC] = .ok (.send [0xAA, 0xBB, 0xCC], []) ∧
    decodeCommand [0x02, 0x20, 0x01] = .ok (.recv 288, []) ∧
    decodeCommand [0x03, 0x05, 0x01, 0x08, 0x14, 0x00, 0x00, 0x01, 0x02, 0x03, 0x04, 0x05] =
      .ok (.frameReceived 0x105 8 ⟨0x14, 0, 0, 1, 2, 3, 4, 5⟩, []) ∧
    decodeCommand [0x04] = .ok (.frameSent, []) ∧
    decodeCommand [0x05] = .ok (.dispatch, []) ∧
    decodeCommand [0x06] = .ok (.reservedCmd 6, []) ∧
    decodeCommand [0xFF] = .ok (.reservedCmd 0xFF, []) ∧
    decodeFrame ⟨0x005, 1, ⟨9, 0, 0, 0, 0, 0, 0, 0⟩⟩ = .rxSingle 5 1 ⟨9, 0, 0, 0, 0, 0, 0, 0⟩ ∧
    decodeFrame ⟨0x1FF, 2, ⟨0, 0, 0, 0, 0, 0, 0, 0⟩⟩ = .rxFirst 0xFF 2 ⟨0, 0, 0, 0, 0, 0, 0, 0⟩ ∧
    decodeFrame ⟨0x207, 0, ⟨0, 0, 0, 0, 0, 0, 0, 0⟩⟩ = .rxCont 7 0 ⟨0, 0, 0, 0, 0, 0, 0, 0⟩ ∧
    decodeFrame ⟨0x7AB, 0, ⟨0, 0, 0, 0, 0, 0, 0, 0⟩⟩ = .rxReservedKind 7 0xAB 0 ⟨0, 0, 0, 0, 0, 0, 0, 0⟩

/-- R81: the layout of the identifier. -/
def Obligations.IdentifierLayout : Prop :=
  (∀ (k : BitVec 3) (s : BitVec 8),
      (mkid k s).toNat = k.toNat * 256 + s.toNat ∧ kindOf (mkid k s) = k ∧ srcOf (mkid k s) = s) ∧
    ∀ (id : BitVec 11), (∀ j, j < 3 → (kindOf id).getLsbD j = id.getLsbD (8 + j)) ∧
      (∀ j, j < 8 → (srcOf id).getLsbD j = id.getLsbD j) ∧ mkid (kindOf id) (srcOf id) = id

/-- R90: the classification of a received frame, with the DLC test first. -/
def Obligations.FrameClassification : Prop :=
  ∀ (id : BitVec 11) (dlc : BitVec 4),
    (classify id dlc = .malformedDlc ↔ 8 < dlc.toNat) ∧
      (classify id dlc = .single ↔ dlc.toNat ≤ 8 ∧ (kindOf id).toNat = 0) ∧
      (classify id dlc = .first ↔ dlc.toNat ≤ 8 ∧ (kindOf id).toNat = 1) ∧
      (classify id dlc = .cont ↔ dlc.toNat ≤ 8 ∧ (kindOf id).toNat = 2) ∧
      (classify id dlc = .reserved ↔ dlc.toNat ≤ 8 ∧ 3 ≤ (kindOf id).toNat)

/-- R101, R160: a frame that arrives in frame format does exactly what FRAME_RECEIVED of that frame does, for every
identifier, DLC and state. -/
def Obligations.FrameKindsAreFrameReceived : Prop :=
  ∀ (f : Frame) (s : State), exec (decodeFrame f) s = exec (.frameReceived f.id f.dlc f.data) s

/-! ## Steps, refusals, power-on -/

/-- R15, R66: a step runs the operation that the head of the inbox decodes to, with what is left of the arrival put
back before the rest; with an empty inbox the block holds its state (R246). That operations arrive as a list in one
order, and as these two formats, is the model's form (log entries 3, 5). -/
def Obligations.StepRunsDecodedOperation : Prop :=
  (∀ (s : State) (i : Instr) (rest : List Arrival), i.wf = true → s.inbox = encode i :: rest →
      step s = exec i { s with inbox := rest }) ∧
    (∀ (s : State) (bytes left : List Byte) (i : Instr) (rest : List Arrival), s.inbox = .command bytes :: rest →
      decodeCommand bytes = .ok (i, left) →
      step s = exec i { s with inbox := if left = [] then rest else .command left :: rest }) ∧
    ∀ s : State, s.inbox = [] → step s = .next s

/-- R247, R262, R263: an operation that keeps the duties of the environment completes, in every state. -/
def Obligations.DutifulOperationsComplete : Prop :=
  ∀ (i : Instr) (s : State), Dutiful s i = true → ∃ t, exec i s = .next t

/-- R232, R262: a step is refused exactly when the next arrival does not decode, is a reserved command code, or is an
operation other than INIT before the first INIT. So after INIT every other arrival completes, in any order. -/
def Obligations.RefusedExactlyWhen : Prop :=
  ∀ s : State, (∃ r, step s = .refused r) ↔
    ∃ a rest, s.inbox = a :: rest ∧
      ((∃ e, decode a = .error e) ∨ (∃ code left, decode a = .ok (.reservedCmd code, left)) ∨
        (s.initDone = false ∧ ∃ i left, decode a = .ok (i, left) ∧ ∀ id, i ≠ .init id))

/-- R261: while `init_done = 0` every operation other than INIT is refused with reason NotInitialised. -/
def Obligations.RefusedBeforeInit : Prop :=
  ∀ (i : Instr) (s : State), s.initDone = false → (∀ id, i ≠ .init id) → (∀ code, i ≠ .reservedCmd code) →
    exec i s = .refused .notInitialised

/-- R97, R232: first bytes 0x06 to 0xFF encode no operation, and such a command is refused, with the reason
ReservedCommand. That this is the reason before the first INIT too is the model's, since no rule orders the reasons (log
entry 11, DEDUCED). -/
def Obligations.ReservedCodesRefused : Prop :=
  (∀ (code : Byte) (s : State), exec (.reservedCmd code) s = .refused .reservedCommand) ∧
    ∀ (code : Byte) (bytes : List Byte) (s : State) (rest : List Arrival), 6 ≤ code.toNat →
      s.inbox = .command (code :: bytes) :: rest → step s = .refused .reservedCommand

/-- R260: the block at power-on, for every configuration and every value of the unspecified `local_id`; the reset state
is one of these (which one is the model's choice, log entries 2, 8). -/
def Obligations.PowerOnState : Prop :=
  (∀ (c : Config) (id : BitVec 8),
      (State.powerOn c id).initDone = false ∧
        (State.powerOn c id).txPool = List.replicate c.poolFrames freeSlot ∧
        (State.powerOn c id).txRd = 0 ∧ (State.powerOn c id).txWr = 0 ∧ (State.powerOn c id).txInflight = false ∧
        (∀ src, (State.powerOn c id).rxSlot src = idleSlot c.maxMsg) ∧
        (State.powerOn c id).dq = List.replicate c.dqDepth (freeEntry c.maxMsg) ∧
        (State.powerOn c id).dqRd = 0 ∧ (State.powerOn c id).dqWr = 0 ∧
        (State.powerOn c id).rxDrops = 0 ∧ (State.powerOn c id).txDrops = 0) ∧
    ∃ c id, State.reset = State.powerOn c id

/-- R7, R114, R192, R32 to R34: the invariant holds at power-on of every legal configuration, and at reset. -/
def Obligations.InvariantAtPowerOn : Prop :=
  (∀ (c : Config) (id : BitVec 8), c.Legal → (State.powerOn c id).Inv) ∧ State.reset.Inv

/-- R260, R261: until the first INIT the block stays as it was at power-on. -/
def Obligations.UntouchedBeforeInit : Prop :=
  ∀ s t : State, (s.initDone = false → SameBlock s (State.powerOn s.cfg s.localId)) → step s = .next t →
    (t.initDone = false → SameBlock t (State.powerOn t.cfg t.localId))

/-- R210: INIT, from every state. -/
def Obligations.InitResult : Prop :=
  ∀ (id : BitVec 8) (s : State), ∃ t, exec (.init id) s = .next t ∧
    t.localId = id ∧ t.txPool = List.replicate s.cfg.poolFrames freeSlot ∧ t.txRd = 0 ∧ t.txWr = 0 ∧
    t.txInflight = false ∧ t.rs = List.replicate 256 (idleSlot s.cfg.maxMsg) ∧
    t.dq = List.replicate s.cfg.dqDepth (freeEntry s.cfg.maxMsg) ∧ t.dqRd = 0 ∧ t.dqWr = 0 ∧
    t.rxDrops = 0 ∧ t.txDrops = 0 ∧ t.initDone = true ∧
    t.trace = s.trace ∧ t.roomAnswers = s.roomAnswers ∧ t.roomDraws = s.roomDraws ∧
    t.cfg = s.cfg ∧ t.inbox = s.inbox ∧ t.result.bytes = []

/-- R262, R212: INIT forgets all that was before it: from any two states of one configuration it puts the block into
the same state, and that state meets the invariant. -/
def Obligations.InitForgetsThePast : Prop :=
  ∀ (id : BitVec 8) (s s' : State), s.cfg = s'.cfg → s.cfg.Legal →
    ∃ t t', exec (.init id) s = .next t ∧ exec (.init id) s' = .next t' ∧ SameBlock t t' ∧ t.Inv

/-- R39: the flags after INIT: all are false, except `tx_empty` and `dq_empty`, which are true. -/
def Obligations.FlagsAfterInit : Prop :=
  ∀ (id : BitVec 8) (s : State), s.cfg.Legal →
    ∃ t, exec (.init id) s = .next t ∧ (∀ i, (t.poolSlot i).used = false) ∧ t.txInflight = false ∧
      (∀ src, (t.rxSlot src).active = false) ∧ (∀ j, (t.dqEntry j).used = false) ∧
      txEmpty t = true ∧ dqEmpty t = true ∧ txFull t = false ∧ dqFull t = false ∧ txStatus t = .idle

/-! ## The transmit side -/

/-- R130: the number of frames of a message, as the least n with `L ≤ 6 + 8·(n − 1)` for L > 8, and the examples. -/
def Obligations.FrameCount : Prop :=
  (∀ len, len ≤ 8 → nframes len = 1) ∧
    (∀ len, 8 < len → 2 ≤ nframes len ∧ len ≤ 6 + 8 * (nframes len - 1) ∧ 6 + 8 * (nframes len - 2) < len) ∧
    nframes 0 = 1 ∧ nframes 8 = 1 ∧ nframes 9 = 2 ∧ nframes 14 = 2 ∧ nframes 15 = 3 ∧ nframes 20 = 3 ∧
    nframes 30 = 4 ∧ nframes 31 = 5 ∧ nframes 65535 = 8193

/-- R9, R131: with a legal configuration, a message is too large exactly when it is longer than min(M, Lcap(P)). -/
def Obligations.TooLargeIsOverCapacity : Prop :=
  ∀ (c : Config) (len : Nat), c.Legal →
    (tooLarge c len = true ↔ min c.maxMsg (capacity c.poolFrames) < len) ∧
      (c.poolFrames = 1 → capacity c.poolFrames = 8) ∧
      (2 ≤ c.poolFrames → capacity c.poolFrames = 8 * c.poolFrames - 2)

/-- R89: the layout of a message over its frames: one SINGLE frame up to 8 bytes; else a FIRST frame with the length
header and 6 bytes, and CONT frames of 8 bytes, the last with the remainder of 1 to 8 bytes. -/
def Obligations.MessageLayout : Prop :=
  ∀ (b : List Byte) (s : BitVec 8), b.length ≤ 65535 →
    (b.length ≤ 8 → ∃ f, segment b s = [f] ∧ f.id = mkid 0 s ∧ f.dlc.toNat = b.length ∧
      f.data.toList = b ++ zeros (8 - b.length)) ∧
    (8 < b.length → (segment b s).length = nframes b.length ∧
      (∃ f, (segment b s)[0]? = some f ∧ f.id = mkid 1 s ∧ f.dlc.toNat = 8 ∧
        f.data.toList = BitVec.ofNat 8 (b.length % 256) :: BitVec.ofNat 8 (b.length / 256) :: b.take 6) ∧
      ∀ k, 1 ≤ k → k < nframes b.length → ∃ f, (segment b s)[k]? = some f ∧ f.id = mkid 2 s ∧
        f.dlc.toNat = min b.length (6 + 8 * k) - (6 + 8 * (k - 1)) ∧
        f.data.toList = slice b (6 + 8 * (k - 1)) (min b.length (6 + 8 * k)) ++ zeros (8 - f.dlc.toNat) ∧
        (k + 1 < nframes b.length → f.dlc.toNat = 8) ∧
        (k + 1 = nframes b.length →
          f.dlc.toNat = b.length - 6 - 8 * (nframes b.length - 2) ∧ 1 ≤ f.dlc.toNat ∧ f.dlc.toNat ≤ 8))

/-- R132, R87, R24: `segment(b, s)` has nframes(|b|) frames, each with dlc ≤ 8, zero padding, source field s, and a
kind that is not reserved. -/
def Obligations.SegmentFramesWellBuilt : Prop :=
  ∀ (b : List Byte) (s : BitVec 8), (segment b s).length = nframes b.length ∧
    ∀ f ∈ segment b s, FrameBuilt f ∧ srcOf f.id = s ∧ (kindOf f.id).toNat ≤ 2

/-- R60: the payload bytes of the frames of a message, in frame order, are the message. -/
def Obligations.SegmentationPreservesBytes : Prop :=
  ∀ (b : List Byte) (s : BitVec 8), (segment b s).flatMap framePayload = b

/-- R133 to R135: a SEND that is too large, or that the free slots cannot hold, is rejected whole: its status says
which (too large first), one drop is counted and notified, and nothing else is written. -/
def Obligations.SendRejection : Prop :=
  ∀ (b : List Byte) (s : State), s.initDone = true →
    ((s.cfg.maxMsg < b.length ∨ s.cfg.poolFrames < nframes b.length) →
      exec (.send b) s = .next { s with
        txDrops := s.txDrops + 1
        trace := s.trace ++ [.txDropped .messageTooLarge]
        result := .status 0x01 }) ∧
    (b.length ≤ s.cfg.maxMsg → nframes b.length ≤ s.cfg.poolFrames → txFree s < nframes b.length →
      exec (.send b) s = .next { s with
        txDrops := s.txDrops + 1
        trace := s.trace ++ [.txDropped .poolExhausted]
        result := .status 0x02 })

/-- R133, R111, R114, R67: an accepted SEND refines a FIFO of frames: the frames of the message are queued behind all
others, in order, and `tx_wr` advances by one place for each of them (mod P); then one dispatch step is made, and the
status is 0x00. With the pool invariant of `t` this fixes `tx_rd` too. Nothing but the transmit side is written. The
room answer is any Boolean: its form is the model's (log entry 4, DESIGN CHOICE). -/
def Obligations.SendAcceptance : Prop :=
  ∀ (b : List Byte) (s : State), s.initDone = true → s.cfg.Legal → PoolRing s → b.length ≤ s.cfg.maxMsg →
    nframes b.length ≤ txFree s →
    ∃ t, exec (.send b) s = .next t ∧ DispatchStep (queuedFrames s ++ segment b s.localId) s t ∧ PoolRing t ∧
      t.txWr.toNat = (s.txWr.toNat + nframes b.length) % s.cfg.poolFrames ∧
      t = { s with txPool := t.txPool, txRd := t.txRd, txWr := t.txWr, txInflight := t.txInflight, trace := t.trace,
                   roomAnswers := t.roomAnswers, roomDraws := t.roomDraws, result := .status 0x00 }

/-- R140, R144: DISPATCH makes one dispatch step on the queue of frames. The room answer is any Boolean: the inbox of
answers and the free value after it are the model's form of a draw (log entry 4). -/
def Obligations.DispatchResult : Prop :=
  ∀ s : State, s.initDone = true → s.cfg.Legal → PoolRing s →
    ∃ t, exec .dispatch s = .next t ∧ DispatchStep (queuedFrames s) s t ∧ PoolRing t ∧
      t = { s with txPool := t.txPool, txRd := t.txRd, txInflight := t.txInflight, trace := t.trace,
                   roomAnswers := t.roomAnswers, roomDraws := t.roomDraws, result := .none }

/-- R142: FRAME_SENT with a frame in flight clears the in-flight bit and makes one dispatch step. The
form of the room answer is the model's (log entry 4, DESIGN CHOICE). -/
def Obligations.FrameSentResult : Prop :=
  ∀ s : State, s.initDone = true → s.txInflight = true → s.cfg.Legal → PoolRing s →
    ∃ t, exec .frameSent s = .next t ∧ DispatchStep (queuedFrames s) { s with txInflight := false } t ∧ PoolRing t ∧
      t = { s with txPool := t.txPool, txRd := t.txRd, txInflight := t.txInflight, trace := t.trace,
                   roomAnswers := t.roomAnswers, roomDraws := t.roomDraws, result := .none }

/-- R143: a FRAME_SENT with nothing in flight changes no state, emits no event and is not counted. -/
def Obligations.SpuriousFrameSent : Prop :=
  ∀ s : State, s.initDone = true → s.txInflight = false → exec .frameSent s = .next { s with result := .none }

/-- R145: the segmenter state machine, row by row. -/
def Obligations.SegmenterStateMachine : Prop :=
  ∀ s : State, s.initDone = true → s.cfg.Legal → PoolRing s →
    (∀ b : List Byte, b.length ≤ s.cfg.maxMsg → nframes b.length ≤ txFree s →
      ∃ t, exec (.send b) s = .next t ∧
        (txStatus s ≠ .waitSent → roomAnswer s = false →
          txStatus t = .ready ∧ t.trace = s.trace ++ [.roomQuery false]) ∧
        (txStatus s = .idle → roomAnswer s = true →
          txStatus t = .waitSent ∧ txCount t + 1 = nframes b.length ∧
            ∃ f, t.trace = s.trace ++ [.roomQuery true, .sendFrame f]) ∧
        (txStatus s = .ready → roomAnswer s = true →
          txStatus t = .waitSent ∧ ∃ f, t.trace = s.trace ++ [.roomQuery true, .sendFrame f]) ∧
        (txStatus s = .waitSent →
          txStatus t = .waitSent ∧ txCount t = txCount s + nframes b.length ∧ t.trace = s.trace)) ∧
    (∃ t, exec .frameSent s = .next t ∧
        (txStatus s = .waitSent → txCount s = 0 → txStatus t = .idle ∧ t.trace = s.trace) ∧
        (txStatus s = .waitSent → 0 < txCount s → roomAnswer s = false →
          txStatus t = .ready ∧ t.trace = s.trace ++ [.roomQuery false]) ∧
        (txStatus s = .waitSent → 0 < txCount s → roomAnswer s = true →
          txStatus t = .waitSent ∧ txCount t + 1 = txCount s ∧
            ∃ f, t.trace = s.trace ++ [.roomQuery true, .sendFrame f]) ∧
        (txStatus s ≠ .waitSent → txStatus t = txStatus s ∧ txCount t = txCount s ∧ t.trace = s.trace)) ∧
    (∃ t, exec .dispatch s = .next t ∧
        (txStatus s = .ready → roomAnswer s = false →
          txStatus t = .ready ∧ t.trace = s.trace ++ [.roomQuery false]) ∧
        (txStatus s = .ready → roomAnswer s = true →
          txStatus t = .waitSent ∧ ∃ f, t.trace = s.trace ++ [.roomQuery true, .sendFrame f]) ∧
        (txStatus s ≠ .ready → txStatus t = txStatus s ∧ txCount t = txCount s ∧ t.trace = s.trace)) ∧
    (∀ b : List Byte, (s.cfg.maxMsg < b.length ∨ txFree s < nframes b.length) →
      ∃ t c, exec (.send b) s = .next t ∧ txStatus t = txStatus s ∧ txCount t = txCount s ∧
        t.trace = s.trace ++ [.txDropped c]) ∧
    ∀ id : BitVec 8, ∃ t, exec (.init id) s = .next t ∧ txStatus t = .idle ∧ t.trace = s.trace

/-- R30, R140, R247, R271: in a run whose operations keep the duties (FRAME_SENT only while a frame is in flight, INIT
only while none is), the in-flight bit counts the frames handed over and not yet reported sent: at most one frame is ever
at the driver. -/
def Obligations.AtMostOneFrameInFlight : Prop :=
  ∀ (is : List Instr) (s t : State), SafeRun is s t →
    ∃ es, t.trace = s.trace ++ es ∧
      t.txInflight.toNat + is.countP (· == .frameSent) = s.txInflight.toNat + es.countP Event.isSendFrame

/-- R30, R271: while a frame is in flight, an operation other than FRAME_SENT and INIT leaves it in flight, hands over no
frame and asks the driver nothing. -/
def Obligations.NothingSentWhileInFlight : Prop :=
  ∀ (i : Instr) (s t : State), s.txInflight = true → i ≠ .frameSent → (∀ id, i ≠ .init id) → exec i s = .next t →
    t.txInflight = true ∧ t.txRd = s.txRd ∧ t.roomAnswers = s.roomAnswers ∧ t.roomDraws = s.roomDraws ∧
      ∃ es, t.trace = s.trace ++ es ∧ (∀ f, .sendFrame f ∉ es) ∧ (∀ r, .roomQuery r ∉ es)

/-- R67 (a) and (b), R114, R146: over any run without INIT, the frames handed to the driver, followed by those still
queued, are the frames queued at the start followed by the frames of the accepted SENDs, in acceptance order: nothing is
lost, added, reordered or interleaved. -/
def Obligations.FramesLeaveInAcceptanceOrder : Prop :=
  ∀ (is : List Instr) (s t : State), s.cfg.Legal → PoolRing s → (∀ id, .init id ∉ is) → execAll is s = .next t →
    PoolRing t ∧ ∃ es, t.trace = s.trace ++ es ∧
      es.filterMap Event.handedOver ++ queuedFrames t = queuedFrames s ++ acceptedFrames is s

/-- R146, R279: under the fairness premises (room is answered true, DISPATCH is issued, FRAME_SENT follows each
SendFrame) all queued frames are handed over, in order, and the segmenter ends idle. That the answers are laid down in a
list is the model's form (log entry 4, DESIGN CHOICE); the statement speaks of answers that are all true. -/
def Obligations.QueuedFramesAreAllSent : Prop :=
  ∀ s : State, s.initDone = true → s.cfg.Legal → PoolRing s → s.txInflight = false → 0 < txCount s →
    s.roomAnswers = List.replicate (txCount s) true →
    ∃ t, execAll (.dispatch :: List.replicate (txCount s) .frameSent) s = .next t ∧ txStatus t = .idle ∧
      t.trace = s.trace ++ (queuedFrames s).flatMap fun f => [.roomQuery true, .sendFrame f]

/-! ## The receive side -/

/-- R161, R240: a frame with dlc > 8 is dropped and counted, whatever its kind; no slot and no entry is touched. -/
def Obligations.MalformedDlcDropped : Prop :=
  ∀ (i : Instr) (f : Frame) (s : State), (i = decodeFrame f ∨ i = .frameReceived f.id f.dlc f.data) →
    s.initDone = true → 8 < f.dlc.toNat →
    exec i s = .next { s with
      rxDrops := s.rxDrops + 1, trace := s.trace ++ [.rxDropped .malformedDlc], result := .none }

/-- R162: a SINGLE frame of legal DLC idles the slot of its source; longer than M it is dropped as OVERSIZE, else its
bytes are delivered. -/
def Obligations.SingleFrameResult : Prop :=
  ∀ (i : Instr) (src : BitVec 8) (dlc : BitVec 4) (data : Bytes8) (s : State),
    (i = .rxSingle src dlc data ∨ i = .frameReceived (mkid 0 src) dlc data) →
    s.initDone = true → s.cfg.Legal → DqRing s → dlc.toNat ≤ 8 →
    (s.cfg.maxMsg < dlc.toNat → exec i s = .next { s with
      rs := s.rs.set src.toNat (idleSlot s.cfg.maxMsg)
      rxDrops := s.rxDrops + 1, trace := s.trace ++ [.rxDropped .oversize], result := .none }) ∧
    (dlc.toNat ≤ s.cfg.maxMsg → ∃ t, exec i s = .next t ∧ DqRing t ∧
      Delivery src (data.toList.take dlc.toNat) s t ∧
      t = { s with rs := s.rs.set src.toNat (idleSlot s.cfg.maxMsg), dq := t.dq, dqWr := t.dqWr,
                   rxDrops := t.rxDrops, trace := t.trace, result := .none })

/-- R165, R164, R169: a FIRST frame of legal DLC, case by case, with T its declared total and k its payload bytes. -/
def Obligations.FirstFrameResult : Prop :=
  ∀ (i : Instr) (src : BitVec 8) (dlc : BitVec 4) (data : Bytes8) (s : State),
    (i = .rxFirst src dlc data ∨ i = .frameReceived (mkid 1 src) dlc data) →
    s.initDone = true → s.cfg.Legal → DqRing s → dlc.toNat ≤ 8 →
    (dlc.toNat < 2 → exec i s = .next { s with
      rs := s.rs.set src.toNat (idleSlot s.cfg.maxMsg)
      rxDrops := s.rxDrops + 1, trace := s.trace ++ [.rxDropped .malformedFirst], result := .none }) ∧
    (2 ≤ dlc.toNat → s.cfg.maxMsg < data.d0.toNat + 256 * data.d1.toNat → exec i s = .next { s with
      rs := s.rs.set src.toNat (idleSlot s.cfg.maxMsg)
      rxDrops := s.rxDrops + 1, trace := s.trace ++ [.rxDropped .oversize], result := .none }) ∧
    (2 ≤ dlc.toNat → data.d0.toNat + 256 * data.d1.toNat ≤ s.cfg.maxMsg →
      data.d0.toNat + 256 * data.d1.toNat < dlc.toNat - 2 → exec i s = .next { s with
      rs := s.rs.set src.toNat (idleSlot s.cfg.maxMsg)
      rxDrops := s.rxDrops + 1, trace := s.trace ++ [.rxDropped .overrun], result := .none }) ∧
    (2 ≤ dlc.toNat → data.d0.toNat + 256 * data.d1.toNat ≤ s.cfg.maxMsg →
      dlc.toNat - 2 = data.d0.toNat + 256 * data.d1.toNat → ∃ t, exec i s = .next t ∧ DqRing t ∧
      Delivery src (slice data.toList 2 dlc.toNat) s t ∧
      t = { s with rs := s.rs.set src.toNat (idleSlot s.cfg.maxMsg), dq := t.dq, dqWr := t.dqWr,
                   rxDrops := t.rxDrops, trace := t.trace, result := .none }) ∧
    (2 ≤ dlc.toNat → data.d0.toNat + 256 * data.d1.toNat ≤ s.cfg.maxMsg →
      dlc.toNat - 2 < data.d0.toNat + 256 * data.d1.toNat → ∃ r : RxSlot, r.active = true ∧
      r.total.toNat = data.d0.toNat + 256 * data.d1.toNat ∧ r.acc.toNat = dlc.toNat - 2 ∧
      r.buf = slice data.toList 2 dlc.toNat ++ zeros (s.cfg.maxMsg - (dlc.toNat - 2)) ∧
      exec i s = .next { s with rs := s.rs.set src.toNat r, result := .none })

/-- R167 to R169, R166: a CONT frame of legal DLC, case by case. -/
def Obligations.ContFrameResult : Prop :=
  ∀ (i : Instr) (src : BitVec 8) (dlc : BitVec 4) (data : Bytes8) (s : State),
    (i = .rxCont src dlc data ∨ i = .frameReceived (mkid 2 src) dlc data) →
    s.initDone = true → s.cfg.Legal → DqRing s → RxSlotOk s.cfg.maxMsg (s.rxSlot src) → dlc.toNat ≤ 8 →
    ((s.rxSlot src).active = false → exec i s = .next { s with
      rxDrops := s.rxDrops + 1, trace := s.trace ++ [.rxDropped .orphanContinuation], result := .none }) ∧
    ((s.rxSlot src).active = true → (s.rxSlot src).total.toNat < (s.rxSlot src).acc.toNat + dlc.toNat →
      exec i s = .next { s with
        rs := s.rs.set src.toNat (idleSlot s.cfg.maxMsg)
        rxDrops := s.rxDrops + 1, trace := s.trace ++ [.rxDropped .overrun], result := .none }) ∧
    ((s.rxSlot src).active = true → (s.rxSlot src).acc.toNat + dlc.toNat = (s.rxSlot src).total.toNat →
      ∃ t, exec i s = .next t ∧ DqRing t ∧
        Delivery src ((s.rxSlot src).buf.take (s.rxSlot src).acc.toNat ++ data.toList.take dlc.toNat) s t ∧
        t = { s with rs := s.rs.set src.toNat (idleSlot s.cfg.maxMsg), dq := t.dq, dqWr := t.dqWr,
                     rxDrops := t.rxDrops, trace := t.trace, result := .none }) ∧
    ((s.rxSlot src).active = true → (s.rxSlot src).acc.toNat + dlc.toNat < (s.rxSlot src).total.toNat →
      ∃ r : RxSlot, r.active = true ∧ r.total = (s.rxSlot src).total ∧
        r.acc.toNat = (s.rxSlot src).acc.toNat + dlc.toNat ∧
        r.buf = (s.rxSlot src).buf.take (s.rxSlot src).acc.toNat ++ data.toList.take dlc.toNat ++
          zeros (s.cfg.maxMsg - ((s.rxSlot src).acc.toNat + dlc.toNat)) ∧
        exec i s = .next { s with rs := s.rs.set src.toNat r, result := .none })

/-- R172: a frame of legal DLC and kind 3 to 7 is dropped and counted, and no slot is touched. -/
def Obligations.ReservedKindDropped : Prop :=
  ∀ (i : Instr) (kind : BitVec 3) (src : BitVec 8) (dlc : BitVec 4) (data : Bytes8) (s : State),
    3 ≤ kind.toNat → (i = .rxReservedKind kind src dlc data ∨ i = .frameReceived (mkid kind src) dlc data) →
    s.initDone = true → dlc.toNat ≤ 8 →
    exec i s = .next { s with
      rxDrops := s.rxDrops + 1, trace := s.trace ++ [.rxDropped .reservedKind], result := .none }

/-- R163: a start frame of legal DLC does the same whatever its source's slot held before: a partial message is
discarded, not delivered, not counted and not notified. -/
def Obligations.StartFrameIgnoresPartial : Prop :=
  ∀ (i : Instr) (src : BitVec 8) (dlc : BitVec 4) (data : Bytes8) (s : State) (r r' : RxSlot),
    (i = .rxSingle src dlc data ∨ i = .rxFirst src dlc data ∨ i = .frameReceived (mkid 0 src) dlc data ∨
      i = .frameReceived (mkid 1 src) dlc data) → dlc.toNat ≤ 8 →
    exec i { s with rs := s.rs.set src.toNat r } = exec i { s with rs := s.rs.set src.toNat r' }

/-- R171: a received frame reads and writes no reassembly slot but its source's: the other slots stay, they do not
matter to what it does, and no entry but the one at `dq_wr` and no transmit-side state is touched. -/
def Obligations.SourcesAreIndependent : Prop :=
  ∀ (i : Instr) (src : BitVec 8) (s t : State), sourceOf i = some src → exec i s = .next t →
    (∀ u, u ≠ src → t.rxSlot u = s.rxSlot u) ∧
      (∀ j, j ≠ s.dqWr.toNat → t.dqEntry j = s.dqEntry j) ∧
      (t.txPool = s.txPool ∧ t.txRd = s.txRd ∧ t.txWr = s.txWr ∧ t.txInflight = s.txInflight ∧
        t.txDrops = s.txDrops) ∧
      ∀ (u : BitVec 8) (r : RxSlot), u ≠ src →
        exec i { s with rs := s.rs.set u.toNat r } = .next { t with rs := t.rs.set u.toNat r }

/-- R194, R193, R196, R197: RECV refines a FIFO of messages: it returns the first min(len, max_size) bytes of the
oldest one and its source, removes the whole message, and counts and emits nothing; it writes nothing else. -/
def Obligations.RecvResult : Prop :=
  ∀ (maxSize : Half) (s : State), s.initDone = true → s.cfg.Legal → DqRing s →
    (∀ e ∈ s.dq, DqEntryOk s.cfg.maxMsg e) →
    (queuedMessages s = [] → exec (.recv maxSize) s = .next { s with result := .response false 0 0 [] }) ∧
    ∀ src m q, queuedMessages s = (src, m) :: q →
      ∃ t copied, exec (.recv maxSize) s = .next t ∧ copied.toNat = min m.length maxSize.toNat ∧
        t.result = .response true copied src (m.take (min m.length maxSize.toNat)) ∧
        queuedMessages t = q ∧ DqRing t ∧ t = { s with dq := t.dq, dqRd := t.dqRd, result := t.result }

/-- R195: RECV on an empty queue returns `(0, 0, 0, [])`, writes no state and emits no event, and any number of such
RECVs in a row leave the state as it was. -/
def Obligations.RecvOnEmptyHasNoEffect : Prop :=
  ∀ (maxSize : Half) (maxSizes : List Half) (s : State), s.initDone = true → dqEmpty s = true →
    execAll (.recv maxSize :: maxSizes.map .recv) s = .next { s with result := .response false 0 0 [] }

/-- R60, R89, R132, R162 to R170: reassembly inverts segmentation: the frames of a message of at most M bytes, received
in order from one source, deliver exactly that message, once, and leave the slot idle; whatever the slot held. -/
def Obligations.ReassemblyInvertsSegmentation : Prop :=
  ∀ (b : List Byte) (src : BitVec 8) (s : State), s.initDone = true → s.cfg.Legal → DqRing s → s.rs.length = 256 →
    b.length ≤ s.cfg.maxMsg →
    ∃ t, execAll ((segment b src).map fun f => .frameReceived f.id f.dlc f.data) s = .next t ∧ DqRing t ∧
      Delivery src b s t ∧ t.rxSlot src = idleSlot s.cfg.maxMsg ∧
      t = { s with rs := t.rs, dq := t.dq, dqWr := t.dqWr, rxDrops := t.rxDrops, trace := t.trace, result := .none }

/-- R60, W4 of 95_test_vectors.md, "recv(send(b)) yields b unchanged": from an idle block with empty queues, a message
that fits is sent, each frame handed over is looped back and reported sent, and a RECV with enough room returns the
message, with the block's own source. Every room query is answered true. Nothing is dropped, and the queues end empty. -/
def Obligations.RoundTrip : Prop :=
  ∀ (b : List Byte) (maxSize : Half) (s : State), s.initDone = true → s.Inv → txStatus s = .idle → dqCount s = 0 →
    b.length ≤ s.cfg.maxMsg → nframes b.length ≤ s.cfg.poolFrames → b.length ≤ maxSize.toNat →
    s.roomAnswers = List.replicate (nframes b.length) true →
    ∃ t, execAll (.send b :: ((segment b s.localId).flatMap fun f => [loopback f, .frameSent]) ++ [.recv maxSize]) s =
        .next t ∧
      t.result = .response true (BitVec.ofNat 16 b.length) s.localId b ∧
      t.trace = s.trace ++ (segment b s.localId).flatMap (fun f => [.roomQuery true, .sendFrame f]) ∧
      txStatus t = .idle ∧ dqCount t = 0 ∧ t.rxDrops = s.rxDrops ∧ t.txDrops = s.txDrops

/-! ## Accounting, frames and whole-machine rules -/

/-- R216, R214, R215, R217: an operation other than INIT raises at most one drop; each counter grows, mod 2^32, by
exactly the drop notifications of its side; INIT emits nothing and clears both. -/
def Obligations.DropAccounting : Prop :=
  ∀ (i : Instr) (s t : State), exec i s = .next t →
    ∃ es, t.trace = s.trace ++ es ∧ es.countP Event.isRxDrop + es.countP Event.isTxDrop ≤ 1 ∧
      (∀ id, i = .init id → es = [] ∧ t.rxDrops = 0 ∧ t.txDrops = 0) ∧
      ((∀ id, i ≠ .init id) →
        t.rxDrops.toNat = (s.rxDrops.toNat + es.countP Event.isRxDrop) % 2 ^ 32 ∧
          t.txDrops.toNat = (s.txDrops.toNat + es.countP Event.isTxDrop) % 2 ^ 32)

/-- R72: what the transmit and the receive operations write. -/
def Obligations.SidesWriteTheirOwnState : Prop :=
  ∀ (i : Instr) (s t : State), exec i s = .next t →
    (isTransmit i = true → t = { s with
      txPool := t.txPool, txRd := t.txRd, txWr := t.txWr, txInflight := t.txInflight, txDrops := t.txDrops,
      trace := t.trace, roomAnswers := t.roomAnswers, roomDraws := t.roomDraws, result := t.result }) ∧
    (isReceive i = true → t = { s with
      rs := t.rs, dq := t.dq, dqRd := t.dqRd, dqWr := t.dqWr, rxDrops := t.rxDrops,
      trace := t.trace, result := t.result })

/-- R72: a transmit operation and a receive operation commute: in either order they give the same block state. -/
def Obligations.SidesCommute : Prop :=
  ∀ (i j : Instr) (s : State), isTransmit i = true → isReceive j = true → s.initDone = true →
    ∃ t t', execAll [i, j] s = .next t ∧ execAll [j, i] s = .next t' ∧ SameBlock t t'

/-- R218: drops leave no error mode: the drop counters, the notifications emitted and the result of the last operation
do not matter to what any operation does next. -/
def Obligations.DropsLeaveNoErrorMode : Prop :=
  ∀ (i : Instr) (s t : State) (rx tx : BitVec 32) (es : List Event) (r : Result), exec i s = .next t →
    ∃ t', exec i { s with rxDrops := rx, txDrops := tx, trace := es, result := r } = .next t' ∧
      t = { t' with rxDrops := t.rxDrops, txDrops := t.txDrops, trace := t.trace } ∧
      (∃ new, t.trace = s.trace ++ new ∧ t'.trace = es ++ new)

/-- R26, R174: only INIT writes `local_id`, and no receive operation reads it: there is no source filtering. -/
def Obligations.LocalIdentity : Prop :=
  ∀ (i : Instr) (s t : State), exec i s = .next t →
    ((∀ id, i ≠ .init id) → t.localId = s.localId) ∧ (∀ id, i = .init id → t.localId = id) ∧
      (isReceive i = true → ∀ x, exec i { s with localId := x } = .next { t with localId := x })

/-- R70, R22: no step changes the configuration, and none undoes INIT. -/
def Obligations.ConfigurationIsFixed : Prop :=
  ∀ s t : State, step s = .next t → t.cfg = s.cfg ∧ (s.initDone = true → t.initDone = true)

/-- R7, R24, R27, R32 to R36, R114, R192: every step keeps the invariant, from every state that has it. -/
def Obligations.StepKeepsInvariant : Prop :=
  ∀ s t : State, s.Inv → step s = .next t → t.Inv

/-- R98, R230, R194, R231: what each operation that completes returns, in every state, as a result and in bytes, and the
codes of the causes. INIT, DISPATCH, FRAME_SENT and the reception of a frame, by its kind or as FRAME_RECEIVED, return
nothing; SEND returns its status; RECV returns the head of the queue, cut to `max_size`, or all zero. -/
def Obligations.ResultBytesAndCodes : Prop :=
  (∀ (i : Instr) (s t : State), exec i s = .next t →
      ((∀ b, i ≠ .send b) → (∀ maxSize, i ≠ .recv maxSize) → t.result = .none) ∧
        (∀ b, i = .send b → t.result = .status (
          if s.cfg.maxMsg < b.length ∨ s.cfg.poolFrames < nframes b.length then 0x01
          else if txFree s < nframes b.length then 0x02 else 0x00)) ∧
        ∀ maxSize, i = .recv maxSize → t.result =
          if (s.dqEntry s.dqRd.toNat).used = false then .response false 0 0 []
          else .response true (BitVec.ofNat 16 (min (s.dqEntry s.dqRd.toNat).len.toNat maxSize.toNat))
            (s.dqEntry s.dqRd.toNat).src
            ((s.dqEntry s.dqRd.toNat).bytes.take (min (s.dqEntry s.dqRd.toNat).len.toNat maxSize.toNat))) ∧
    Result.bytes .none = [] ∧ (∀ c, Result.bytes (.status c) = [c]) ∧
    (∀ v n src out, Result.bytes (.response v n src out) =
      [(if v then 1 else 0), lowByte n, highByte n, src] ++ out) ∧
    statusAccepted = 0x00 ∧ TxCause.status .messageTooLarge = 0x01 ∧ TxCause.status .poolExhausted = 0x02 ∧
    [RxCause.oversize, .orphanContinuation, .dqFull, .overrun, .malformedDlc, .malformedFirst,
      .reservedKind].map RxCause.code = [1, 2, 3, 4, 5, 6, 7]
end

