-- ==== Sys2Proof/Laws/Encoding.lean ====
section
/-! SUPPORT. Bit fields, byte order and the eight data bytes: packing and unpacking are inverse to each other. -/

namespace Sys2Proof

theorem le16_toNat (lo hi : Byte) : (le16 lo hi).toNat = lo.toNat + 256 * hi.toNat := by
  have h := Nat.shiftLeft_add_eq_or_of_lt lo.isLt hi.toNat
  rw [le16, BitVec.toNat_append, ← h, Nat.shiftLeft_eq]
  omega

theorem lowByte_toNat (w : Half) : (lowByte w).toNat = w.toNat % 256 := by
  simp [lowByte]

theorem highByte_toNat (w : Half) : (highByte w).toNat = w.toNat / 256 := by
  simp only [highByte, BitVec.extractLsb'_toNat, Nat.shiftRight_eq_div_pow]
  omega

theorem mkid_toNat (k : BitVec 3) (s : BitVec 8) : (mkid k s).toNat = k.toNat * 256 + s.toNat := by
  have h := Nat.shiftLeft_add_eq_or_of_lt s.isLt k.toNat
  rw [mkid, BitVec.toNat_append, ← h, Nat.shiftLeft_eq]

theorem kindOf_toNat (id : BitVec 11) : (kindOf id).toNat = id.toNat / 256 := by
  simp only [kindOf, BitVec.extractLsb'_toNat, Nat.shiftRight_eq_div_pow]
  omega

theorem srcOf_toNat (id : BitVec 11) : (srcOf id).toNat = id.toNat % 256 := by
  simp [srcOf]

@[simp] theorem le16_lowByte_highByte (w : Half) : le16 (lowByte w) (highByte w) = w :=
  BitVec.eq_of_toNat_eq (by rw [le16_toNat, lowByte_toNat, highByte_toNat]; omega)

@[simp] theorem lowByte_le16 (lo hi : Byte) : lowByte (le16 lo hi) = lo :=
  BitVec.eq_of_toNat_eq (by rw [lowByte_toNat, le16_toNat]; omega)

@[simp] theorem highByte_le16 (lo hi : Byte) : highByte (le16 lo hi) = hi :=
  BitVec.eq_of_toNat_eq (by rw [highByte_toNat, le16_toNat]; omega)

@[simp] theorem kindOf_mkid (k : BitVec 3) (s : BitVec 8) : kindOf (mkid k s) = k :=
  BitVec.eq_of_toNat_eq (by rw [kindOf_toNat, mkid_toNat]; omega)

@[simp] theorem srcOf_mkid (k : BitVec 3) (s : BitVec 8) : srcOf (mkid k s) = s :=
  BitVec.eq_of_toNat_eq (by rw [srcOf_toNat, mkid_toNat]; omega)

@[simp] theorem mkid_kindOf_srcOf (id : BitVec 11) : mkid (kindOf id) (srcOf id) = id :=
  BitVec.eq_of_toNat_eq (by rw [mkid_toNat, kindOf_toNat, srcOf_toNat]; omega)

@[simp] theorem Bytes8.ofList_toList (d : Bytes8) : Bytes8.ofList d.toList = d := rfl

@[simp] theorem Bytes8.length_toList (d : Bytes8) : d.toList.length = 8 := rfl

theorem zeros_succ (n : Nat) : zeros (n + 1) = 0 :: zeros n := rfl

@[simp] theorem length_zeros (n : Nat) : (zeros n).length = n := List.length_replicate ..

/-- At most eight bytes come back from the data field, with zero bytes after them (R87). -/
theorem Bytes8.toList_ofList (l : List Byte) (h : l.length ≤ 8) :
    (Bytes8.ofList l).toList = l ++ zeros (8 - l.length) := by
  apply List.ext_getElem
  · simp; omega
  · intro i h1 h2
    have hi : i < 8 := by simpa using h1
    have key : (Bytes8.ofList l).toList[i] = l.getD i 0 := by
      interval_cases i <;> rfl
    refine key.trans ?_
    by_cases hl : i < l.length
    · simp [hl]
    · simp [hl, List.getElem_append_right (Nat.le_of_not_lt hl), zeros]

/-- A byte below 8 fits three bits. -/
theorem setWidth_three_eight (b : Byte) (h : b.toNat < 8) : (b.setWidth 3).setWidth 8 = b := by
  apply BitVec.eq_of_toNat_eq
  simp only [BitVec.toNat_setWidth]
  omega

@[simp] theorem setWidth_eight_three (k : BitVec 3) : (k.setWidth 8).setWidth 3 = k := by
  apply BitVec.eq_of_toNat_eq
  simp only [BitVec.toNat_setWidth]
  omega

/-- A byte below 16 fits four bits. -/
theorem setWidth_four_eight (b : Byte) (h : b.toNat < 16) : (b.setWidth 4).setWidth 8 = b := by
  apply BitVec.eq_of_toNat_eq
  simp only [BitVec.toNat_setWidth]
  omega

@[simp] theorem setWidth_eight_four (k : BitVec 4) : (k.setWidth 8).setWidth 4 = k := by
  apply BitVec.eq_of_toNat_eq
  simp only [BitVec.toNat_setWidth]
  omega

theorem toNat_setWidth_three_lt (k : BitVec 3) : (k.setWidth 8).toNat < 8 := by
  simp only [BitVec.toNat_setWidth]
  omega

theorem toNat_setWidth_four_lt (k : BitVec 4) : (k.setWidth 8).toNat < 16 := by
  simp only [BitVec.toNat_setWidth]
  omega

@[simp] theorem isEmpty_pendingAfter (rest : List Arrival) : pendingAfter [] rest = rest := rfl

end Sys2Proof
end

