-- ==== Sys2Proof/Laws/Ring.lean ====
section
/-! SUPPORT. The ring shared by the frame pool and the Dispatch Queue: when it is empty and full, and what writing at
the write index and clearing at the read index do to it and to its contents. -/

namespace Sys2Proof.Machine

variable {α : Type} {used : α → Bool} {d : α} {xs : List α} {n rd wr : Nat}

/-- The distance of a place from the read index, without `%`. -/
theorem ring_offset {i : Nat} (hrd : rd < n) (hi : i < n) :
    (i + n - rd) % n = if rd ≤ i then i - rd else i + n - rd := by
  split
  · rw [show i + n - rd = (i - rd) + n by omega, Nat.add_mod_right, Nat.mod_eq_of_lt (by omega)]
  · rw [Nat.mod_eq_of_lt (by omega)]

/-- The place at a distance from the read index, without `%`. -/
theorem ring_place {k : Nat} (hrd : rd < n) (hk : k ≤ n) :
    (rd + k) % n = if rd + k < n then rd + k else rd + k - n := by
  split
  · exact Nat.mod_eq_of_lt ‹_›
  · rw [show rd + k = (rd + k - n) + n by omega, Nat.add_mod_right, Nat.mod_eq_of_lt (by omega)]
    omega

theorem Ring.count_le (h : Ring used d xs n rd wr) : xs.countP used ≤ n := h.1 ▸ List.countP_le_length

/-- The oldest place is used exactly when some place is. -/
theorem Ring.used_rd (h : Ring used d xs n rd wr) : used (xs.getD rd d) = true ↔ 0 < xs.countP used := by
  obtain ⟨-, hrd, -, -, hused⟩ := h
  rw [hused rd hrd, ring_offset hrd hrd]
  simp

/-- The next place is used exactly when every place is. -/
theorem Ring.used_wr (h : Ring used d xs n rd wr) : used (xs.getD wr d) = true ↔ xs.countP used = n := by
  have hle := h.count_le
  obtain ⟨-, hrd, hwr, heq, hused⟩ := h
  rw [hused wr hwr, ring_offset hrd hwr]
  rw [ring_place hrd hle] at heq
  split at heq <;> split <;> omega

theorem Ring.unused_wr (h : Ring used d xs n rd wr) (hlt : xs.countP used < n) :
    used (xs.getD wr d) = false := by
  rw [← Bool.not_eq_true, h.used_wr]
  omega

theorem getD_set_eq (i : Nat) (v : α) (hi : i < xs.length) : (xs.set i v).getD i d = v := by
  simp [List.getD_eq_getElem?_getD, hi]

theorem getD_set_ne {i j : Nat} (v : α) (hij : i ≠ j) : (xs.set i v).getD j d = xs.getD j d := by
  simp [List.getD_eq_getElem?_getD, hij]

theorem countP_set_of_unused {i : Nat} {v : α} (hi : i < xs.length) (hold : used (xs.getD i d) = false)
    (hnew : used v = true) : (xs.set i v).countP used = xs.countP used + 1 := by
  rw [List.countP_set hi]
  have : used xs[i] = false := by simpa [List.getD_eq_getElem?_getD, hi] using hold
  simp [this, hnew]

theorem countP_set_of_used {i : Nat} {v : α} (hi : i < xs.length) (hold : used (xs.getD i d) = true)
    (hnew : used v = false) : (xs.set i v).countP used + 1 = xs.countP used := by
  have hu : used xs[i] = true := by simpa [List.getD_eq_getElem?_getD, hi] using hold
  have hpos : 0 < xs.countP used := List.countP_pos_iff.2 ⟨_, List.getElem_mem hi, hu⟩
  rw [List.countP_set hi]
  simp [hu, hnew]
  omega

/-- Writing a used value at the write index adds it behind the contents (R111, R190). -/
theorem Ring.push (h : Ring used d xs n rd wr) (hlt : xs.countP used < n) {v : α} (hv : used v = true) :
    Ring used d (xs.set wr v) n rd ((wr + 1) % n) ∧
      ringContents used d (xs.set wr v) n rd = ringContents used d xs n rd ++ [v] := by
  have hfree := h.unused_wr hlt
  obtain ⟨hlen, hrd, hwr, heq, hused⟩ := h
  have hcount : (xs.set wr v).countP used = xs.countP used + 1 :=
    countP_set_of_unused (d := d) (hlen ▸ hwr) hfree hv
  have hn : 0 < n := by omega
  refine ⟨⟨by simpa using hlen, hrd, Nat.mod_lt _ hn, ?_, ?_⟩, ?_⟩
  · rw [hcount, heq, Nat.mod_add_mod, Nat.add_assoc]
  · intro i hi
    rw [hcount]
    by_cases hiw : i = wr
    · subst hiw
      rw [getD_set_eq _ _ (hlen ▸ hi)]
      simp only [hv, true_iff]
      rw [ring_offset hrd hi]
      rw [ring_place hrd hlt.le] at heq
      split at heq <;> split <;> omega
    · rw [getD_set_ne _ (Ne.symm hiw), hused i hi, ring_offset hrd hi]
      rw [ring_place hrd hlt.le] at heq
      split at heq <;> split <;> omega
  · rw [ringContents, ringContents, hcount, List.range_succ, List.map_append]
    congr 1
    · apply List.map_congr_left
      intro k hk
      have hk := List.mem_range.1 hk
      apply getD_set_ne
      rw [heq, ring_place hrd hlt.le, ring_place hrd (by omega)]
      split <;> split <;> omega
    · simp only [List.map_cons, List.map_nil, ← heq]
      rw [getD_set_eq _ _ (hlen ▸ hwr)]

/-- Clearing the place at the read index removes the oldest of the contents (R113, R193). -/
theorem Ring.pop (h : Ring used d xs n rd wr) (hpos : 0 < xs.countP used) {v : α} (hv : used v = false) :
    Ring used d (xs.set rd v) n ((rd + 1) % n) wr ∧
      ringContents used d xs n rd = xs.getD rd d :: ringContents used d (xs.set rd v) n ((rd + 1) % n) := by
  have hfull := h.used_rd.2 hpos
  have hle := h.count_le
  obtain ⟨hlen, hrd, hwr, heq, hused⟩ := h
  have hcount : (xs.set rd v).countP used + 1 = xs.countP used :=
    countP_set_of_used (d := d) (hlen ▸ hrd) hfull hv
  have hn : 0 < n := by omega
  have hrd' : (rd + 1) % n = if rd + 1 < n then rd + 1 else rd + 1 - n := ring_place hrd hn
  refine ⟨⟨by simpa using hlen, Nat.mod_lt _ hn, hwr, ?_, ?_⟩, ?_⟩
  · rw [heq, Nat.mod_add_mod]
    congr 1
    omega
  · intro i hi
    by_cases hir : i = rd
    · subst hir
      rw [getD_set_eq _ _ (hlen ▸ hi), ring_offset (Nat.mod_lt _ hn) hi, hrd']
      simp only [hv, Bool.false_eq_true, false_iff]
      split <;> split <;> omega
    · rw [getD_set_ne _ (Ne.symm hir), hused i hi, ring_offset hrd hi, ring_offset (Nat.mod_lt _ hn) hi, hrd']
      repeat' split
      all_goals omega
  · rw [ringContents, ringContents, ← hcount, List.range_succ_eq_map, List.map_cons, List.map_map, Nat.add_zero,
      Nat.mod_eq_of_lt hrd]
    congr 1
    apply List.map_congr_left
    intro k hk
    have hk := List.mem_range.1 hk
    simp only [Function.comp_apply]
    rw [show (rd + 1) % n = ((rd + 1) % n) from rfl, Nat.mod_add_mod, show rd + 1 + k = rd + (k + 1) by omega]
    symm
    apply getD_set_ne
    rw [ring_place hrd (by omega)]
    split <;> omega

@[simp] theorem ringContents_length : (ringContents used d xs n rd).length = xs.countP used := by
  simp [ringContents]

theorem ringContents_eq_nil : ringContents used d xs n rd = [] ↔ xs.countP used = 0 := by
  rw [← List.length_eq_zero_iff, ringContents_length]

/-- A ring of unused places. -/
theorem Ring.replicate (hd : used d = false) (hn : 0 < n) : Ring used d (List.replicate n d) n 0 0 := by
  have hcount : (List.replicate n d).countP used = 0 := by simp [List.countP_replicate, hd]
  refine ⟨by simp, hn, hn, ?_, ?_⟩
  · rw [hcount]; exact (Nat.zero_mod n).symm
  · intro i hi
    rw [hcount]
    simp [List.getD_eq_getElem?_getD, hi, hd]

/-- The contents are members of the array, or its default. -/
theorem mem_ringContents {x : α} (h : Ring used d xs n rd wr) (hx : x ∈ ringContents used d xs n rd) :
    x ∈ xs ∧ used x = true := by
  have hle := h.count_le
  obtain ⟨hlen, hrd, hwr, heq, hused⟩ := h
  obtain ⟨k, hk, rfl⟩ := List.mem_map.1 hx
  have hk := List.mem_range.1 hk
  have hp : (rd + k) % n < n := Nat.mod_lt _ (by omega)
  constructor
  · rw [List.getD_eq_getElem?_getD, List.getElem?_eq_getElem (hlen ▸ hp)]
    exact List.getElem_mem _
  · rw [hused _ hp, ring_offset hrd hp, ring_place hrd (by omega)]
    repeat' split
    all_goals omega

end Sys2Proof.Machine
end

