-- ==== Sys2Proof/Laws/State.lean ====
section
/-! SUPPORT. Each named update of the state, field by field: what it writes and what it leaves. -/

namespace Sys2Proof.Machine

variable (s : State)

/-! ## emit -/

@[simp] theorem State.emit_initDone (e : Event) : (s.emit e).initDone = s.initDone := rfl
@[simp] theorem State.emit_localId (e : Event) : (s.emit e).localId = s.localId := rfl
@[simp] theorem State.emit_txPool (e : Event) : (s.emit e).txPool = s.txPool := rfl
@[simp] theorem State.emit_txRd (e : Event) : (s.emit e).txRd = s.txRd := rfl
@[simp] theorem State.emit_txWr (e : Event) : (s.emit e).txWr = s.txWr := rfl
@[simp] theorem State.emit_txInflight (e : Event) : (s.emit e).txInflight = s.txInflight := rfl
@[simp] theorem State.emit_rs (e : Event) : (s.emit e).rs = s.rs := rfl
@[simp] theorem State.emit_dq (e : Event) : (s.emit e).dq = s.dq := rfl
@[simp] theorem State.emit_dqRd (e : Event) : (s.emit e).dqRd = s.dqRd := rfl
@[simp] theorem State.emit_dqWr (e : Event) : (s.emit e).dqWr = s.dqWr := rfl
@[simp] theorem State.emit_rxDrops (e : Event) : (s.emit e).rxDrops = s.rxDrops := rfl
@[simp] theorem State.emit_txDrops (e : Event) : (s.emit e).txDrops = s.txDrops := rfl
@[simp] theorem State.emit_cfg (e : Event) : (s.emit e).cfg = s.cfg := rfl
@[simp] theorem State.emit_inbox (e : Event) : (s.emit e).inbox = s.inbox := rfl
@[simp] theorem State.emit_roomAnswers (e : Event) : (s.emit e).roomAnswers = s.roomAnswers := rfl
@[simp] theorem State.emit_roomDraws (e : Event) : (s.emit e).roomDraws = s.roomDraws := rfl
@[simp] theorem State.emit_trace (e : Event) : (s.emit e).trace = s.trace ++ [e] := rfl
@[simp] theorem State.emit_result (e : Event) : (s.emit e).result = s.result := rfl

/-! ## dropRx -/

@[simp] theorem State.dropRx_initDone (c : RxCause) : (s.dropRx c).initDone = s.initDone := rfl
@[simp] theorem State.dropRx_localId (c : RxCause) : (s.dropRx c).localId = s.localId := rfl
@[simp] theorem State.dropRx_txPool (c : RxCause) : (s.dropRx c).txPool = s.txPool := rfl
@[simp] theorem State.dropRx_txRd (c : RxCause) : (s.dropRx c).txRd = s.txRd := rfl
@[simp] theorem State.dropRx_txWr (c : RxCause) : (s.dropRx c).txWr = s.txWr := rfl
@[simp] theorem State.dropRx_txInflight (c : RxCause) : (s.dropRx c).txInflight = s.txInflight := rfl
@[simp] theorem State.dropRx_rs (c : RxCause) : (s.dropRx c).rs = s.rs := rfl
@[simp] theorem State.dropRx_dq (c : RxCause) : (s.dropRx c).dq = s.dq := rfl
@[simp] theorem State.dropRx_dqRd (c : RxCause) : (s.dropRx c).dqRd = s.dqRd := rfl
@[simp] theorem State.dropRx_dqWr (c : RxCause) : (s.dropRx c).dqWr = s.dqWr := rfl
@[simp] theorem State.dropRx_rxDrops (c : RxCause) : (s.dropRx c).rxDrops = s.rxDrops + 1 := rfl
@[simp] theorem State.dropRx_txDrops (c : RxCause) : (s.dropRx c).txDrops = s.txDrops := rfl
@[simp] theorem State.dropRx_cfg (c : RxCause) : (s.dropRx c).cfg = s.cfg := rfl
@[simp] theorem State.dropRx_inbox (c : RxCause) : (s.dropRx c).inbox = s.inbox := rfl
@[simp] theorem State.dropRx_roomAnswers (c : RxCause) : (s.dropRx c).roomAnswers = s.roomAnswers := rfl
@[simp] theorem State.dropRx_roomDraws (c : RxCause) : (s.dropRx c).roomDraws = s.roomDraws := rfl
@[simp] theorem State.dropRx_trace (c : RxCause) : (s.dropRx c).trace = s.trace ++ [.rxDropped c] := rfl
@[simp] theorem State.dropRx_result (c : RxCause) : (s.dropRx c).result = s.result := rfl

/-! ## dropTx -/

@[simp] theorem State.dropTx_initDone (c : TxCause) : (s.dropTx c).initDone = s.initDone := rfl
@[simp] theorem State.dropTx_localId (c : TxCause) : (s.dropTx c).localId = s.localId := rfl
@[simp] theorem State.dropTx_txPool (c : TxCause) : (s.dropTx c).txPool = s.txPool := rfl
@[simp] theorem State.dropTx_txRd (c : TxCause) : (s.dropTx c).txRd = s.txRd := rfl
@[simp] theorem State.dropTx_txWr (c : TxCause) : (s.dropTx c).txWr = s.txWr := rfl
@[simp] theorem State.dropTx_txInflight (c : TxCause) : (s.dropTx c).txInflight = s.txInflight := rfl
@[simp] theorem State.dropTx_rs (c : TxCause) : (s.dropTx c).rs = s.rs := rfl
@[simp] theorem State.dropTx_dq (c : TxCause) : (s.dropTx c).dq = s.dq := rfl
@[simp] theorem State.dropTx_dqRd (c : TxCause) : (s.dropTx c).dqRd = s.dqRd := rfl
@[simp] theorem State.dropTx_dqWr (c : TxCause) : (s.dropTx c).dqWr = s.dqWr := rfl
@[simp] theorem State.dropTx_rxDrops (c : TxCause) : (s.dropTx c).rxDrops = s.rxDrops := rfl
@[simp] theorem State.dropTx_txDrops (c : TxCause) : (s.dropTx c).txDrops = s.txDrops + 1 := rfl
@[simp] theorem State.dropTx_cfg (c : TxCause) : (s.dropTx c).cfg = s.cfg := rfl
@[simp] theorem State.dropTx_inbox (c : TxCause) : (s.dropTx c).inbox = s.inbox := rfl
@[simp] theorem State.dropTx_roomAnswers (c : TxCause) : (s.dropTx c).roomAnswers = s.roomAnswers := rfl
@[simp] theorem State.dropTx_roomDraws (c : TxCause) : (s.dropTx c).roomDraws = s.roomDraws := rfl
@[simp] theorem State.dropTx_trace (c : TxCause) : (s.dropTx c).trace = s.trace ++ [.txDropped c] := rfl
@[simp] theorem State.dropTx_result (c : TxCause) : (s.dropTx c).result = s.result := rfl

/-! ## setPoolSlot -/

@[simp] theorem State.setPoolSlot_initDone (i : Nat) (v : PoolSlot) : (s.setPoolSlot i v).initDone = s.initDone := rfl
@[simp] theorem State.setPoolSlot_localId (i : Nat) (v : PoolSlot) : (s.setPoolSlot i v).localId = s.localId := rfl
@[simp] theorem State.setPoolSlot_txPool (i : Nat) (v : PoolSlot) : (s.setPoolSlot i v).txPool = s.txPool.set i v := rfl
@[simp] theorem State.setPoolSlot_txRd (i : Nat) (v : PoolSlot) : (s.setPoolSlot i v).txRd = s.txRd := rfl
@[simp] theorem State.setPoolSlot_txWr (i : Nat) (v : PoolSlot) : (s.setPoolSlot i v).txWr = s.txWr := rfl
@[simp] theorem State.setPoolSlot_txInflight (i : Nat) (v : PoolSlot) : (s.setPoolSlot i v).txInflight = s.txInflight := rfl
@[simp] theorem State.setPoolSlot_rs (i : Nat) (v : PoolSlot) : (s.setPoolSlot i v).rs = s.rs := rfl
@[simp] theorem State.setPoolSlot_dq (i : Nat) (v : PoolSlot) : (s.setPoolSlot i v).dq = s.dq := rfl
@[simp] theorem State.setPoolSlot_dqRd (i : Nat) (v : PoolSlot) : (s.setPoolSlot i v).dqRd = s.dqRd := rfl
@[simp] theorem State.setPoolSlot_dqWr (i : Nat) (v : PoolSlot) : (s.setPoolSlot i v).dqWr = s.dqWr := rfl
@[simp] theorem State.setPoolSlot_rxDrops (i : Nat) (v : PoolSlot) : (s.setPoolSlot i v).rxDrops = s.rxDrops := rfl
@[simp] theorem State.setPoolSlot_txDrops (i : Nat) (v : PoolSlot) : (s.setPoolSlot i v).txDrops = s.txDrops := rfl
@[simp] theorem State.setPoolSlot_cfg (i : Nat) (v : PoolSlot) : (s.setPoolSlot i v).cfg = s.cfg := rfl
@[simp] theorem State.setPoolSlot_inbox (i : Nat) (v : PoolSlot) : (s.setPoolSlot i v).inbox = s.inbox := rfl
@[simp] theorem State.setPoolSlot_roomAnswers (i : Nat) (v : PoolSlot) : (s.setPoolSlot i v).roomAnswers = s.roomAnswers := rfl
@[simp] theorem State.setPoolSlot_roomDraws (i : Nat) (v : PoolSlot) : (s.setPoolSlot i v).roomDraws = s.roomDraws := rfl
@[simp] theorem State.setPoolSlot_trace (i : Nat) (v : PoolSlot) : (s.setPoolSlot i v).trace = s.trace := rfl
@[simp] theorem State.setPoolSlot_result (i : Nat) (v : PoolSlot) : (s.setPoolSlot i v).result = s.result := rfl

/-! ## setRxSlot -/

@[simp] theorem State.setRxSlot_initDone (src : BitVec 8) (v : RxSlot) : (s.setRxSlot src v).initDone = s.initDone := rfl
@[simp] theorem State.setRxSlot_localId (src : BitVec 8) (v : RxSlot) : (s.setRxSlot src v).localId = s.localId := rfl
@[simp] theorem State.setRxSlot_txPool (src : BitVec 8) (v : RxSlot) : (s.setRxSlot src v).txPool = s.txPool := rfl
@[simp] theorem State.setRxSlot_txRd (src : BitVec 8) (v : RxSlot) : (s.setRxSlot src v).txRd = s.txRd := rfl
@[simp] theorem State.setRxSlot_txWr (src : BitVec 8) (v : RxSlot) : (s.setRxSlot src v).txWr = s.txWr := rfl
@[simp] theorem State.setRxSlot_txInflight (src : BitVec 8) (v : RxSlot) : (s.setRxSlot src v).txInflight = s.txInflight := rfl
@[simp] theorem State.setRxSlot_rs (src : BitVec 8) (v : RxSlot) : (s.setRxSlot src v).rs = s.rs.set src.toNat v := rfl
@[simp] theorem State.setRxSlot_dq (src : BitVec 8) (v : RxSlot) : (s.setRxSlot src v).dq = s.dq := rfl
@[simp] theorem State.setRxSlot_dqRd (src : BitVec 8) (v : RxSlot) : (s.setRxSlot src v).dqRd = s.dqRd := rfl
@[simp] theorem State.setRxSlot_dqWr (src : BitVec 8) (v : RxSlot) : (s.setRxSlot src v).dqWr = s.dqWr := rfl
@[simp] theorem State.setRxSlot_rxDrops (src : BitVec 8) (v : RxSlot) : (s.setRxSlot src v).rxDrops = s.rxDrops := rfl
@[simp] theorem State.setRxSlot_txDrops (src : BitVec 8) (v : RxSlot) : (s.setRxSlot src v).txDrops = s.txDrops := rfl
@[simp] theorem State.setRxSlot_cfg (src : BitVec 8) (v : RxSlot) : (s.setRxSlot src v).cfg = s.cfg := rfl
@[simp] theorem State.setRxSlot_inbox (src : BitVec 8) (v : RxSlot) : (s.setRxSlot src v).inbox = s.inbox := rfl
@[simp] theorem State.setRxSlot_roomAnswers (src : BitVec 8) (v : RxSlot) : (s.setRxSlot src v).roomAnswers = s.roomAnswers := rfl
@[simp] theorem State.setRxSlot_roomDraws (src : BitVec 8) (v : RxSlot) : (s.setRxSlot src v).roomDraws = s.roomDraws := rfl
@[simp] theorem State.setRxSlot_trace (src : BitVec 8) (v : RxSlot) : (s.setRxSlot src v).trace = s.trace := rfl
@[simp] theorem State.setRxSlot_result (src : BitVec 8) (v : RxSlot) : (s.setRxSlot src v).result = s.result := rfl

/-! ## idleRxSlot -/

@[simp] theorem State.idleRxSlot_initDone (src : BitVec 8) : (s.idleRxSlot src).initDone = s.initDone := rfl
@[simp] theorem State.idleRxSlot_localId (src : BitVec 8) : (s.idleRxSlot src).localId = s.localId := rfl
@[simp] theorem State.idleRxSlot_txPool (src : BitVec 8) : (s.idleRxSlot src).txPool = s.txPool := rfl
@[simp] theorem State.idleRxSlot_txRd (src : BitVec 8) : (s.idleRxSlot src).txRd = s.txRd := rfl
@[simp] theorem State.idleRxSlot_txWr (src : BitVec 8) : (s.idleRxSlot src).txWr = s.txWr := rfl
@[simp] theorem State.idleRxSlot_txInflight (src : BitVec 8) : (s.idleRxSlot src).txInflight = s.txInflight := rfl
@[simp] theorem State.idleRxSlot_rs (src : BitVec 8) : (s.idleRxSlot src).rs = s.rs.set src.toNat (idleSlot s.cfg.maxMsg) := rfl
@[simp] theorem State.idleRxSlot_dq (src : BitVec 8) : (s.idleRxSlot src).dq = s.dq := rfl
@[simp] theorem State.idleRxSlot_dqRd (src : BitVec 8) : (s.idleRxSlot src).dqRd = s.dqRd := rfl
@[simp] theorem State.idleRxSlot_dqWr (src : BitVec 8) : (s.idleRxSlot src).dqWr = s.dqWr := rfl
@[simp] theorem State.idleRxSlot_rxDrops (src : BitVec 8) : (s.idleRxSlot src).rxDrops = s.rxDrops := rfl
@[simp] theorem State.idleRxSlot_txDrops (src : BitVec 8) : (s.idleRxSlot src).txDrops = s.txDrops := rfl
@[simp] theorem State.idleRxSlot_cfg (src : BitVec 8) : (s.idleRxSlot src).cfg = s.cfg := rfl
@[simp] theorem State.idleRxSlot_inbox (src : BitVec 8) : (s.idleRxSlot src).inbox = s.inbox := rfl
@[simp] theorem State.idleRxSlot_roomAnswers (src : BitVec 8) : (s.idleRxSlot src).roomAnswers = s.roomAnswers := rfl
@[simp] theorem State.idleRxSlot_roomDraws (src : BitVec 8) : (s.idleRxSlot src).roomDraws = s.roomDraws := rfl
@[simp] theorem State.idleRxSlot_trace (src : BitVec 8) : (s.idleRxSlot src).trace = s.trace := rfl
@[simp] theorem State.idleRxSlot_result (src : BitVec 8) : (s.idleRxSlot src).result = s.result := rfl

/-! ## setDqEntry -/

@[simp] theorem State.setDqEntry_initDone (j : Nat) (v : DqEntry) : (s.setDqEntry j v).initDone = s.initDone := rfl
@[simp] theorem State.setDqEntry_localId (j : Nat) (v : DqEntry) : (s.setDqEntry j v).localId = s.localId := rfl
@[simp] theorem State.setDqEntry_txPool (j : Nat) (v : DqEntry) : (s.setDqEntry j v).txPool = s.txPool := rfl
@[simp] theorem State.setDqEntry_txRd (j : Nat) (v : DqEntry) : (s.setDqEntry j v).txRd = s.txRd := rfl
@[simp] theorem State.setDqEntry_txWr (j : Nat) (v : DqEntry) : (s.setDqEntry j v).txWr = s.txWr := rfl
@[simp] theorem State.setDqEntry_txInflight (j : Nat) (v : DqEntry) : (s.setDqEntry j v).txInflight = s.txInflight := rfl
@[simp] theorem State.setDqEntry_rs (j : Nat) (v : DqEntry) : (s.setDqEntry j v).rs = s.rs := rfl
@[simp] theorem State.setDqEntry_dq (j : Nat) (v : DqEntry) : (s.setDqEntry j v).dq = s.dq.set j v := rfl
@[simp] theorem State.setDqEntry_dqRd (j : Nat) (v : DqEntry) : (s.setDqEntry j v).dqRd = s.dqRd := rfl
@[simp] theorem State.setDqEntry_dqWr (j : Nat) (v : DqEntry) : (s.setDqEntry j v).dqWr = s.dqWr := rfl
@[simp] theorem State.setDqEntry_rxDrops (j : Nat) (v : DqEntry) : (s.setDqEntry j v).rxDrops = s.rxDrops := rfl
@[simp] theorem State.setDqEntry_txDrops (j : Nat) (v : DqEntry) : (s.setDqEntry j v).txDrops = s.txDrops := rfl
@[simp] theorem State.setDqEntry_cfg (j : Nat) (v : DqEntry) : (s.setDqEntry j v).cfg = s.cfg := rfl
@[simp] theorem State.setDqEntry_inbox (j : Nat) (v : DqEntry) : (s.setDqEntry j v).inbox = s.inbox := rfl
@[simp] theorem State.setDqEntry_roomAnswers (j : Nat) (v : DqEntry) : (s.setDqEntry j v).roomAnswers = s.roomAnswers := rfl
@[simp] theorem State.setDqEntry_roomDraws (j : Nat) (v : DqEntry) : (s.setDqEntry j v).roomDraws = s.roomDraws := rfl
@[simp] theorem State.setDqEntry_trace (j : Nat) (v : DqEntry) : (s.setDqEntry j v).trace = s.trace := rfl
@[simp] theorem State.setDqEntry_result (j : Nat) (v : DqEntry) : (s.setDqEntry j v).result = s.result := rfl

/-! ## queryRoom -/

@[simp] theorem queryRoom_initDone : (queryRoom s).initDone = s.initDone := rfl
@[simp] theorem queryRoom_localId : (queryRoom s).localId = s.localId := rfl
@[simp] theorem queryRoom_txPool : (queryRoom s).txPool = s.txPool := rfl
@[simp] theorem queryRoom_txRd : (queryRoom s).txRd = s.txRd := rfl
@[simp] theorem queryRoom_txWr : (queryRoom s).txWr = s.txWr := rfl
@[simp] theorem queryRoom_txInflight : (queryRoom s).txInflight = s.txInflight := rfl
@[simp] theorem queryRoom_rs : (queryRoom s).rs = s.rs := rfl
@[simp] theorem queryRoom_dq : (queryRoom s).dq = s.dq := rfl
@[simp] theorem queryRoom_dqRd : (queryRoom s).dqRd = s.dqRd := rfl
@[simp] theorem queryRoom_dqWr : (queryRoom s).dqWr = s.dqWr := rfl
@[simp] theorem queryRoom_rxDrops : (queryRoom s).rxDrops = s.rxDrops := rfl
@[simp] theorem queryRoom_txDrops : (queryRoom s).txDrops = s.txDrops := rfl
@[simp] theorem queryRoom_cfg : (queryRoom s).cfg = s.cfg := rfl
@[simp] theorem queryRoom_inbox : (queryRoom s).inbox = s.inbox := rfl
@[simp] theorem queryRoom_roomAnswers : (queryRoom s).roomAnswers = s.roomAnswers.tail := rfl
@[simp] theorem queryRoom_roomDraws : (queryRoom s).roomDraws = if s.roomAnswers.isEmpty then s.roomDraws + 1 else s.roomDraws := rfl
@[simp] theorem queryRoom_trace : (queryRoom s).trace = s.trace ++ [.roomQuery (roomAnswer s)] := rfl
@[simp] theorem queryRoom_result : (queryRoom s).result = s.result := rfl

/-! ## handOver -/

@[simp] theorem handOver_initDone : (handOver s).initDone = s.initDone := rfl
@[simp] theorem handOver_localId : (handOver s).localId = s.localId := rfl
@[simp] theorem handOver_txPool : (handOver s).txPool = s.txPool.set s.txRd.toNat freeSlot := rfl
@[simp] theorem handOver_txRd : (handOver s).txRd = nextIndex s.cfg.poolFrames s.txRd := rfl
@[simp] theorem handOver_txWr : (handOver s).txWr = s.txWr := rfl
@[simp] theorem handOver_txInflight : (handOver s).txInflight = true := rfl
@[simp] theorem handOver_rs : (handOver s).rs = s.rs := rfl
@[simp] theorem handOver_dq : (handOver s).dq = s.dq := rfl
@[simp] theorem handOver_dqRd : (handOver s).dqRd = s.dqRd := rfl
@[simp] theorem handOver_dqWr : (handOver s).dqWr = s.dqWr := rfl
@[simp] theorem handOver_rxDrops : (handOver s).rxDrops = s.rxDrops := rfl
@[simp] theorem handOver_txDrops : (handOver s).txDrops = s.txDrops := rfl
@[simp] theorem handOver_cfg : (handOver s).cfg = s.cfg := rfl
@[simp] theorem handOver_inbox : (handOver s).inbox = s.inbox := rfl
@[simp] theorem handOver_roomAnswers : (handOver s).roomAnswers = s.roomAnswers := rfl
@[simp] theorem handOver_roomDraws : (handOver s).roomDraws = s.roomDraws := rfl
@[simp] theorem handOver_trace : (handOver s).trace = s.trace ++ [.sendFrame (s.poolSlot s.txRd.toNat).frame] := rfl
@[simp] theorem handOver_result : (handOver s).result = s.result := rfl

end Sys2Proof.Machine
end

