-- ==== Sys2Proof/Laws/Ops.lean ====
section
/-! SUPPORT. One specification lemma for each shared operation: everything it can do, in terms of the queues. -/

namespace Sys2Proof.Machine

/-! ## Byte buffers -/

@[simp] theorem length_slice (b : List Byte) (i j : Nat) : (slice b i j).length = min j b.length - i := by
  simp [slice]

theorem slice_zero (b : List Byte) (j : Nat) : slice b 0 j = b.take j := by simp [slice]

theorem slice_all (b : List Byte) : slice b 0 b.length = b := by simp [slice]

/-- Two neighbouring subsequences make one. -/
theorem slice_append (b : List Byte) {i j k : Nat} (hij : i ≤ j) (hjk : j ≤ k) :
    slice b i j ++ slice b j k = slice b i k := by
  have h : b.take k = b.take j ++ (b.take k).drop j := by
    conv_lhs => rw [← List.take_append_drop j (b.take k)]
    rw [List.take_take, Nat.min_eq_left hjk]
  simp only [slice]
  conv_rhs => rw [h]
  by_cases hb : i ≤ (b.take j).length
  · rw [List.drop_append_of_le_length hb]
  · have h1 : b.length < i := by simp at hb; omega
    have h2 : (b.take k).drop j = [] := List.drop_eq_nil_of_le (by simp; omega)
    rw [h2, List.append_nil, List.append_nil]

theorem length_memWrite (buf : List Byte) (off : Nat) (v : List Byte) (h : off + v.length ≤ buf.length) :
    (memWrite buf off v).length = buf.length := by
  simp [memWrite]
  omega

/-- What is written is read back (R12). -/
theorem memRead_memWrite (buf : List Byte) (off : Nat) (v : List Byte) (h : off ≤ buf.length) :
    memRead (memWrite buf off v) off v.length = v := by
  simp [memRead, memWrite, slice, List.take_append, h]

/-- Bytes outside those written are left alone (R12). -/
theorem getD_memWrite_of_outside (buf : List Byte) (off : Nat) (v : List Byte) (h : off + v.length ≤ buf.length)
    (a : Nat) (ha : a < off ∨ off + v.length ≤ a) : (memWrite buf off v).getD a 0 = buf.getD a 0 := by
  simp only [memWrite, List.getD_eq_getElem?_getD]
  rcases ha with ha | ha
  · rw [List.append_assoc, List.getElem?_append_left (by simp; omega), List.getElem?_take_of_lt ha]
  · rw [List.getElem?_append_right (by simp; omega), List.getElem?_drop]
    congr 2
    simp
    omega

/-! ## Completing, refusing, indices -/

@[simp] theorem whenInitialised_of_true {s : State} (h : s.initDone = true) (r : Outcome) :
    whenInitialised s r = r := by simp [whenInitialised, h]

@[simp] theorem whenInitialised_of_false {s : State} (h : s.initDone = false) (r : Outcome) :
    whenInitialised s r = .refused .notInitialised := by simp [whenInitialised, h]

/-- An operation under the guard that completes ran on an initialised block. -/
theorem whenInitialised_eq_next {s t : State} {r : Outcome} (h : whenInitialised s r = .next t) :
    s.initDone = true ∧ r = .next t := by
  unfold whenInitialised at h
  split at h
  · exact ⟨‹_›, h⟩
  · cases h

@[simp] theorem finish_eq_next {r : Result} {s t : State} : finish r s = .next t ↔ t = { s with result := r } := by
  simp only [finish, Host.Outcome.next.injEq]
  exact eq_comm

theorem nextIndex_toNat {n : Nat} (i : Half) (hn : 0 < n) (hle : n ≤ 65535) :
    (nextIndex n i).toNat = (i.toNat + 1) % n := by
  have := Nat.mod_lt (i.toNat + 1) hn
  simp only [nextIndex, BitVec.toNat_ofNat]
  exact Nat.mod_eq_of_lt (by omega)

/-! ## The frame pool -/

theorem txFree_eq (s : State) : txFree s = s.cfg.poolFrames - txCount s := rfl

theorem queuedFrames_eq_nil {s : State} : queuedFrames s = [] ↔ txCount s = 0 := by
  simp [queuedFrames, ringContents_eq_nil, txCount]

@[simp] theorem queuedFrames_length (s : State) : (queuedFrames s).length = txCount s := by
  simp [queuedFrames, txCount]

/-- The queue depends on the pool, its read index and P alone. -/
theorem queuedFrames_congr {s t : State} (h1 : t.txPool = s.txPool) (h2 : t.txRd = s.txRd) (h3 : t.cfg = s.cfg) :
    queuedFrames t = queuedFrames s := by simp [queuedFrames, h1, h2, h3]

theorem PoolRing_congr {s t : State} (h1 : t.txPool = s.txPool) (h2 : t.txRd = s.txRd) (h3 : t.txWr = s.txWr)
    (h4 : t.cfg = s.cfg) (h : PoolRing s) : PoolRing t := by
  simpa [PoolRing, h1, h2, h3, h4] using h

theorem txEmpty_iff {s : State} (h : PoolRing s) : txEmpty s = true ↔ txCount s = 0 := by
  have := Ring.used_rd h
  simp only [txEmpty, txCount, State.poolSlot, Bool.not_eq_true', ← Bool.not_eq_true, this]
  omega

theorem txFull_iff {s : State} (h : PoolRing s) : txFull s = true ↔ txCount s = s.cfg.poolFrames :=
  Ring.used_wr h

/-- `storeFrame` writes the pool and its write index only. -/
theorem storeFrame_frame (s : State) (f : Frame) :
    storeFrame s f = { s with txPool := (storeFrame s f).txPool, txWr := (storeFrame s f).txWr } := by
  unfold storeFrame acquire
  split
  · rfl
  · rename_i h
    dsimp only at h
    split at h
    · cases h
    · cases h; rfl

theorem storeFrames_frame (s : State) (fs : List Frame) :
    storeFrames s fs = { s with txPool := (storeFrames s fs).txPool, txWr := (storeFrames s fs).txWr } := by
  induction fs generalizing s with
  | nil => rfl
  | cons f fs ih =>
    simp only [storeFrames, List.foldl_cons] at *
    rw [ih, storeFrame_frame]

@[simp] theorem storeFrames_initDone (s : State) (fs : List Frame) : (storeFrames s fs).initDone = s.initDone := by rw [storeFrames_frame]
@[simp] theorem storeFrames_localId (s : State) (fs : List Frame) : (storeFrames s fs).localId = s.localId := by rw [storeFrames_frame]
@[simp] theorem storeFrames_txRd (s : State) (fs : List Frame) : (storeFrames s fs).txRd = s.txRd := by rw [storeFrames_frame]
@[simp] theorem storeFrames_txInflight (s : State) (fs : List Frame) : (storeFrames s fs).txInflight = s.txInflight := by rw [storeFrames_frame]
@[simp] theorem storeFrames_rs (s : State) (fs : List Frame) : (storeFrames s fs).rs = s.rs := by rw [storeFrames_frame]
@[simp] theorem storeFrames_dq (s : State) (fs : List Frame) : (storeFrames s fs).dq = s.dq := by rw [storeFrames_frame]
@[simp] theorem storeFrames_dqRd (s : State) (fs : List Frame) : (storeFrames s fs).dqRd = s.dqRd := by rw [storeFrames_frame]
@[simp] theorem storeFrames_dqWr (s : State) (fs : List Frame) : (storeFrames s fs).dqWr = s.dqWr := by rw [storeFrames_frame]
@[simp] theorem storeFrames_rxDrops (s : State) (fs : List Frame) : (storeFrames s fs).rxDrops = s.rxDrops := by rw [storeFrames_frame]
@[simp] theorem storeFrames_txDrops (s : State) (fs : List Frame) : (storeFrames s fs).txDrops = s.txDrops := by rw [storeFrames_frame]
@[simp] theorem storeFrames_cfg (s : State) (fs : List Frame) : (storeFrames s fs).cfg = s.cfg := by rw [storeFrames_frame]
@[simp] theorem storeFrames_inbox (s : State) (fs : List Frame) : (storeFrames s fs).inbox = s.inbox := by rw [storeFrames_frame]
@[simp] theorem storeFrames_roomAnswers (s : State) (fs : List Frame) : (storeFrames s fs).roomAnswers = s.roomAnswers := by rw [storeFrames_frame]
@[simp] theorem storeFrames_roomDraws (s : State) (fs : List Frame) : (storeFrames s fs).roomDraws = s.roomDraws := by rw [storeFrames_frame]
@[simp] theorem storeFrames_trace (s : State) (fs : List Frame) : (storeFrames s fs).trace = s.trace := by rw [storeFrames_frame]
@[simp] theorem storeFrames_result (s : State) (fs : List Frame) : (storeFrames s fs).result = s.result := by rw [storeFrames_frame]

/-- With room, `storeFrame` writes the frame into the slot at `tx_wr` and queues it last (R111, R114). -/
theorem storeFrame_spec {s : State} (h : PoolRing s) (hP : s.cfg.poolFrames ≤ 65535)
    (hroom : txCount s < s.cfg.poolFrames) (f : Frame) :
    storeFrame s f = { s with
      txPool := s.txPool.set s.txWr.toNat { used := true, frame := f }
      txWr := nextIndex s.cfg.poolFrames s.txWr } ∧
    PoolRing (storeFrame s f) ∧ queuedFrames (storeFrame s f) = queuedFrames s ++ [f] := by
  have hfree : (s.poolSlot s.txWr.toNat).used = false := Ring.unused_wr h hroom
  have heq : storeFrame s f = { s with
      txPool := s.txPool.set s.txWr.toNat { used := true, frame := f }
      txWr := nextIndex s.cfg.poolFrames s.txWr } := by
    have hlt : s.txWr.toNat < s.txPool.length := h.1 ▸ h.2.2.1
    simp only [storeFrame, acquire, hfree, Bool.false_eq_true, if_false]
    simp [State.setPoolSlot, State.poolSlot, hlt]
  have hn : (nextIndex s.cfg.poolFrames s.txWr).toNat = (s.txWr.toNat + 1) % s.cfg.poolFrames :=
    nextIndex_toNat _ (by omega) hP
  have hpush := Ring.push h hroom (v := { used := true, frame := f }) rfl
  refine ⟨heq, ?_, ?_⟩
  · rw [heq]; simpa [PoolRing, hn] using hpush.1
  · rw [heq]; simp [queuedFrames, hpush.2]

/-- The loop of SEND: with room for all of them, the frames are queued last, in order (R114, R115). -/
theorem storeFrames_spec {s : State} (fs : List Frame) (h : PoolRing s) (hP : s.cfg.poolFrames ≤ 65535)
    (hroom : txCount s + fs.length ≤ s.cfg.poolFrames) :
    PoolRing (storeFrames s fs) ∧ queuedFrames (storeFrames s fs) = queuedFrames s ++ fs := by
  induction fs generalizing s with
  | nil => simpa [storeFrames] using h
  | cons f fs ih =>
    simp only [List.length_cons] at hroom
    obtain ⟨heq, hring, hq⟩ := storeFrame_spec h hP (by omega) f
    have hcfg : (storeFrame s f).cfg = s.cfg := by rw [heq]
    have hcount : txCount (storeFrame s f) = txCount s + 1 := by
      rw [← queuedFrames_length, hq]; simp
    have := ih hring (hcfg ▸ hP) (by rw [hcount, hcfg]; omega)
    simp only [storeFrames, List.foldl_cons] at this ⊢
    rw [this.2, hq]
    exact ⟨this.1, by simp⟩

/-- The loop of SEND advances `tx_wr` by one place for each frame (R111). -/
theorem storeFrames_txWr {s : State} (fs : List Frame) (h : PoolRing s) (hP : s.cfg.poolFrames ≤ 65535)
    (hroom : txCount s + fs.length ≤ s.cfg.poolFrames) :
    (storeFrames s fs).txWr.toNat = (s.txWr.toNat + fs.length) % s.cfg.poolFrames := by
  obtain ⟨hring, hq⟩ := storeFrames_spec fs h hP hroom
  have hcount : txCount (storeFrames s fs) = txCount s + fs.length := by
    rw [← queuedFrames_length, hq]; simp
  have hwr := hring.2.2.2.1
  have hold := h.2.2.2.1
  rw [txCount, txCount] at hcount
  rw [hwr, hcount, storeFrames_txRd, storeFrames_cfg, hold, Nat.mod_add_mod, Nat.add_assoc]

/-- `handOver` takes the oldest frame out of the queue, puts it in flight and hands it to the driver (R113, R140). -/
theorem handOver_spec {s : State} (h : PoolRing s) (hP : s.cfg.poolFrames ≤ 65535) (hpos : 0 < txCount s) :
    PoolRing (handOver s) ∧ ∃ f, queuedFrames s = f :: queuedFrames (handOver s) ∧
      (handOver s).trace = s.trace ++ [.sendFrame f] := by
  have hpop := Ring.pop h hpos (v := freeSlot) rfl
  have hn : (nextIndex s.cfg.poolFrames s.txRd).toNat = (s.txRd.toNat + 1) % s.cfg.poolFrames :=
    nextIndex_toNat _ (by have := h.2.1; omega) hP
  refine ⟨by simpa [PoolRing, hn] using hpop.1, (s.poolSlot s.txRd.toNat).frame, ?_, by simp⟩
  simp [queuedFrames, hn, hpop.2, State.poolSlot]

/-- `try_dispatch` (R140): one dispatch step on the queue. -/
theorem tryDispatch_spec {s : State} (h : PoolRing s) (hP : s.cfg.poolFrames ≤ 65535) :
    PoolRing (tryDispatch s) ∧ DispatchStep (queuedFrames s) s (tryDispatch s) := by
  have hempty : txEmpty s = true ↔ queuedFrames s = [] := (txEmpty_iff h).trans queuedFrames_eq_nil.symm
  have hring : PoolRing (queryRoom s) := PoolRing_congr rfl rfl rfl rfl h
  have hq : queuedFrames (queryRoom s) = queuedFrames s := queuedFrames_congr rfl rfl rfl
  unfold tryDispatch DispatchStep
  simp only [Bool.or_eq_true, hempty]
  split
  · exact ⟨h, rfl, rfl, rfl, rfl, rfl⟩
  · rename_i hno
    have hpos : 0 < txCount s := by
      rw [← queuedFrames_length]
      exact List.length_pos_iff.2 fun h => hno (.inr h)
    have hflight : s.txInflight = false := by simpa using fun h => hno (.inl h)
    split
    · obtain ⟨hring', f, hf, htr⟩ := handOver_spec hring hP (by simpa [txCount] using hpos)
      rename_i hans
      refine ⟨hring', ⟨by simp, by simp⟩, by simp, f, hq ▸ hf, ?_⟩
      rw [htr]
      simp [hans]
    · rename_i hans
      exact ⟨hring, ⟨by simp, by simp⟩, by simpa using hflight, hq, by simpa using hans⟩

/-- `try_dispatch` writes the read side of the pool, the in-flight bit, the room answers and the trace only. -/
theorem tryDispatch_frame (s : State) : tryDispatch s = { s with
    txPool := (tryDispatch s).txPool, txRd := (tryDispatch s).txRd, txInflight := (tryDispatch s).txInflight,
    trace := (tryDispatch s).trace, roomAnswers := (tryDispatch s).roomAnswers,
    roomDraws := (tryDispatch s).roomDraws } := by
  unfold tryDispatch
  repeat' split
  all_goals rfl

@[simp] theorem tryDispatch_initDone (s : State) : (tryDispatch s).initDone = s.initDone := by rw [tryDispatch_frame]
@[simp] theorem tryDispatch_localId (s : State) : (tryDispatch s).localId = s.localId := by rw [tryDispatch_frame]
@[simp] theorem tryDispatch_txWr (s : State) : (tryDispatch s).txWr = s.txWr := by rw [tryDispatch_frame]
@[simp] theorem tryDispatch_rs (s : State) : (tryDispatch s).rs = s.rs := by rw [tryDispatch_frame]
@[simp] theorem tryDispatch_dq (s : State) : (tryDispatch s).dq = s.dq := by rw [tryDispatch_frame]
@[simp] theorem tryDispatch_dqRd (s : State) : (tryDispatch s).dqRd = s.dqRd := by rw [tryDispatch_frame]
@[simp] theorem tryDispatch_dqWr (s : State) : (tryDispatch s).dqWr = s.dqWr := by rw [tryDispatch_frame]
@[simp] theorem tryDispatch_rxDrops (s : State) : (tryDispatch s).rxDrops = s.rxDrops := by rw [tryDispatch_frame]
@[simp] theorem tryDispatch_txDrops (s : State) : (tryDispatch s).txDrops = s.txDrops := by rw [tryDispatch_frame]
@[simp] theorem tryDispatch_cfg (s : State) : (tryDispatch s).cfg = s.cfg := by rw [tryDispatch_frame]
@[simp] theorem tryDispatch_inbox (s : State) : (tryDispatch s).inbox = s.inbox := by rw [tryDispatch_frame]
@[simp] theorem tryDispatch_result (s : State) : (tryDispatch s).result = s.result := by rw [tryDispatch_frame]

/-! ## The Dispatch Queue -/

theorem queuedMessages_congr {s t : State} (h1 : t.dq = s.dq) (h2 : t.dqRd = s.dqRd) (h3 : t.cfg = s.cfg) :
    queuedMessages t = queuedMessages s := by simp [queuedMessages, h1, h2, h3]

theorem DqRing_congr {s t : State} (h1 : t.dq = s.dq) (h2 : t.dqRd = s.dqRd) (h3 : t.dqWr = s.dqWr)
    (h4 : t.cfg = s.cfg) (h : DqRing s) : DqRing t := by
  simpa [DqRing, h1, h2, h3, h4] using h

theorem dqEmpty_iff {s : State} (h : DqRing s) : dqEmpty s = true ↔ dqCount s = 0 := by
  have := Ring.used_rd h
  simp only [dqEmpty, dqCount, State.dqEntry, Bool.not_eq_true', ← Bool.not_eq_true, this]
  omega

theorem dqFull_iff {s : State} (h : DqRing s) : dqFull s = true ↔ dqCount s = s.cfg.dqDepth :=
  Ring.used_wr h

theorem queuedMessages_eq_nil {s : State} : queuedMessages s = [] ↔ dqCount s = 0 := by
  simp [queuedMessages, ringContents_eq_nil, dqCount]

/-- A pushed entry holds the message (R190). -/
theorem messageEntry_message (maxMsg : Nat) (src : BitVec 8) (m : List Byte) (h : m.length ≤ 65535) :
    (messageEntry maxMsg src m).message = (src, m) := by
  have : m.length % 65536 = m.length := Nat.mod_eq_of_lt (by omega)
  simp [messageEntry, DqEntry.message, slice, this]

/-- `dq_push` (R190, R191): a delivery. -/
theorem dqPush_spec {s : State} (h : DqRing s) (hD : s.cfg.dqDepth ≤ 65535) (src : BitVec 8) (m : List Byte)
    (hm : m.length ≤ 65535) : DqRing (dqPush src m s) ∧ Delivery src m s (dqPush src m s) := by
  have hfull := dqFull_iff h
  have hle : dqCount s ≤ s.cfg.dqDepth := Ring.count_le h
  unfold dqPush Delivery
  by_cases hf : dqFull s = true
  · rw [if_pos hf, if_neg (by have := hfull.1 hf; omega)]
    exact ⟨DqRing_congr rfl rfl rfl rfl h, rfl, rfl, rfl, rfl⟩
  · have hlt : dqCount s < s.cfg.dqDepth := by
      have := mt hfull.2 hf
      omega
    rw [if_neg hf, if_pos hlt]
    have hn : (nextIndex s.cfg.dqDepth s.dqWr).toNat = (s.dqWr.toNat + 1) % s.cfg.dqDepth :=
      nextIndex_toNat _ (by omega) hD
    have hpush := Ring.push h hlt (v := messageEntry s.cfg.maxMsg src m) rfl
    refine ⟨by simpa [DqRing, hn] using hpush.1, ?_, rfl, rfl⟩
    simp [queuedMessages, hpush.2, messageEntry_message _ _ _ hm]

/-- `dq_push` writes the queue, its write index, the drop counter and the trace only. -/
theorem dqPush_frame (src : BitVec 8) (m : List Byte) (s : State) : dqPush src m s = { s with
    dq := (dqPush src m s).dq, dqWr := (dqPush src m s).dqWr, rxDrops := (dqPush src m s).rxDrops,
    trace := (dqPush src m s).trace } := by
  unfold dqPush
  split <;> rfl

@[simp] theorem dqPush_initDone (src : BitVec 8) (m : List Byte) (s : State) : (dqPush src m s).initDone = s.initDone := by rw [dqPush_frame]
@[simp] theorem dqPush_localId (src : BitVec 8) (m : List Byte) (s : State) : (dqPush src m s).localId = s.localId := by rw [dqPush_frame]
@[simp] theorem dqPush_txPool (src : BitVec 8) (m : List Byte) (s : State) : (dqPush src m s).txPool = s.txPool := by rw [dqPush_frame]
@[simp] theorem dqPush_txRd (src : BitVec 8) (m : List Byte) (s : State) : (dqPush src m s).txRd = s.txRd := by rw [dqPush_frame]
@[simp] theorem dqPush_txWr (src : BitVec 8) (m : List Byte) (s : State) : (dqPush src m s).txWr = s.txWr := by rw [dqPush_frame]
@[simp] theorem dqPush_txInflight (src : BitVec 8) (m : List Byte) (s : State) : (dqPush src m s).txInflight = s.txInflight := by rw [dqPush_frame]
@[simp] theorem dqPush_rs (src : BitVec 8) (m : List Byte) (s : State) : (dqPush src m s).rs = s.rs := by rw [dqPush_frame]
@[simp] theorem dqPush_dqRd (src : BitVec 8) (m : List Byte) (s : State) : (dqPush src m s).dqRd = s.dqRd := by rw [dqPush_frame]
@[simp] theorem dqPush_txDrops (src : BitVec 8) (m : List Byte) (s : State) : (dqPush src m s).txDrops = s.txDrops := by rw [dqPush_frame]
@[simp] theorem dqPush_cfg (src : BitVec 8) (m : List Byte) (s : State) : (dqPush src m s).cfg = s.cfg := by rw [dqPush_frame]
@[simp] theorem dqPush_inbox (src : BitVec 8) (m : List Byte) (s : State) : (dqPush src m s).inbox = s.inbox := by rw [dqPush_frame]
@[simp] theorem dqPush_roomAnswers (src : BitVec 8) (m : List Byte) (s : State) : (dqPush src m s).roomAnswers = s.roomAnswers := by rw [dqPush_frame]
@[simp] theorem dqPush_roomDraws (src : BitVec 8) (m : List Byte) (s : State) : (dqPush src m s).roomDraws = s.roomDraws := by rw [dqPush_frame]
@[simp] theorem dqPush_result (src : BitVec 8) (m : List Byte) (s : State) : (dqPush src m s).result = s.result := by rw [dqPush_frame]
@[simp] theorem dqPop_initDone (s : State) : ((dqPop s).2).initDone = s.initDone := rfl
@[simp] theorem dqPop_localId (s : State) : ((dqPop s).2).localId = s.localId := rfl
@[simp] theorem dqPop_txPool (s : State) : ((dqPop s).2).txPool = s.txPool := rfl
@[simp] theorem dqPop_txRd (s : State) : ((dqPop s).2).txRd = s.txRd := rfl
@[simp] theorem dqPop_txWr (s : State) : ((dqPop s).2).txWr = s.txWr := rfl
@[simp] theorem dqPop_txInflight (s : State) : ((dqPop s).2).txInflight = s.txInflight := rfl
@[simp] theorem dqPop_rs (s : State) : ((dqPop s).2).rs = s.rs := rfl
@[simp] theorem dqPop_dqWr (s : State) : ((dqPop s).2).dqWr = s.dqWr := rfl
@[simp] theorem dqPop_rxDrops (s : State) : ((dqPop s).2).rxDrops = s.rxDrops := rfl
@[simp] theorem dqPop_txDrops (s : State) : ((dqPop s).2).txDrops = s.txDrops := rfl
@[simp] theorem dqPop_cfg (s : State) : ((dqPop s).2).cfg = s.cfg := rfl
@[simp] theorem dqPop_inbox (s : State) : ((dqPop s).2).inbox = s.inbox := rfl
@[simp] theorem dqPop_roomAnswers (s : State) : ((dqPop s).2).roomAnswers = s.roomAnswers := rfl
@[simp] theorem dqPop_roomDraws (s : State) : ((dqPop s).2).roomDraws = s.roomDraws := rfl
@[simp] theorem dqPop_trace (s : State) : ((dqPop s).2).trace = s.trace := rfl
@[simp] theorem dqPop_result (s : State) : ((dqPop s).2).result = s.result := rfl

/-- `dq_pop` (R193) takes the oldest message out of the queue. -/
theorem dqPop_spec {s : State} (h : DqRing s) (hD : s.cfg.dqDepth ≤ 65535) (hpos : 0 < dqCount s) :
    DqRing (dqPop s).2 ∧ (dqPop s).1 ∈ s.dq ∧ (dqPop s).1.used = true ∧
      queuedMessages s = (dqPop s).1.message :: queuedMessages (dqPop s).2 := by
  have hpop := Ring.pop h hpos (v := freeEntry s.cfg.maxMsg) rfl
  have hmem := mem_ringContents h (x := s.dq.getD s.dqRd.toNat (freeEntry s.cfg.maxMsg)) (by rw [hpop.2]; simp)
  have hn : (nextIndex s.cfg.dqDepth s.dqRd).toNat = (s.dqRd.toNat + 1) % s.cfg.dqDepth :=
    nextIndex_toNat _ (by have := h.2.1; omega) hD
  refine ⟨by simpa [DqRing, dqPop, hn] using hpop.1, hmem.1, hmem.2, ?_⟩
  simp [queuedMessages, dqPop, hn, hpop.2, State.dqEntry]

end Sys2Proof.Machine
end

