-- ==== Sys2Proof/Laws/PerInstr.lean ====
section
/-! SUPPORT. The family EncodeShape, one lemma for each constructor: a command is encoded in as many bytes as its format
has (30_encoding.md R96), and a frame kind has no command bytes (R82). -/

open Sys2Proof.Machine

/-- The encoding of a well-formed command is exactly as long as the format that its bytes announce; an operation that
is no command has no command bytes. -/
def Sys2Proof.Laws.EncodeShape.Statement (i : Sys2Proof.Instr) : Prop :=
  if i.isCommand = true then i.wf = true → (Sys2Proof.encodeCommand i).length = formatLength (Sys2Proof.encodeCommand i)
  else Sys2Proof.encodeCommand i = []

namespace Sys2Proof.Laws

theorem EncodeShape.init (id : BitVec 8) : EncodeShape.Statement (.init id) := fun _ => rfl

theorem EncodeShape.send (b : List Byte) : EncodeShape.Statement (.send b) := by
  intro h
  simp only [Instr.wf, decide_eq_true_eq] at h
  have hl : (le16 (lowByte (BitVec.ofNat 16 b.length)) (highByte (BitVec.ofNat 16 b.length))).toNat = b.length := by
    rw [le16_lowByte_highByte, BitVec.toNat_ofNat]
    omega
  exact (Nat.add_comm b.length 3).trans (congrArg (3 + ·) hl.symm)

theorem EncodeShape.recv (m : Half) : EncodeShape.Statement (.recv m) := fun _ => rfl

theorem EncodeShape.frameReceived (id : BitVec 11) (dlc : BitVec 4) (data : Bytes8) :
    EncodeShape.Statement (.frameReceived id dlc data) := fun _ => rfl

theorem EncodeShape.frameSent : EncodeShape.Statement .frameSent := fun _ => rfl

theorem EncodeShape.dispatch : EncodeShape.Statement .dispatch := fun _ => rfl

theorem EncodeShape.reservedCmd (code : Byte) : EncodeShape.Statement (.reservedCmd code) := by
  intro h
  simp only [Instr.wf, decide_eq_true_eq] at h
  simp only [encodeCommand, formatLength, List.getD_cons_zero, List.length_singleton]
  split <;> omega

theorem EncodeShape.rxSingle (src : BitVec 8) (dlc : BitVec 4) (data : Bytes8) :
    EncodeShape.Statement (.rxSingle src dlc data) := rfl

theorem EncodeShape.rxFirst (src : BitVec 8) (dlc : BitVec 4) (data : Bytes8) :
    EncodeShape.Statement (.rxFirst src dlc data) := rfl

theorem EncodeShape.rxCont (src : BitVec 8) (dlc : BitVec 4) (data : Bytes8) :
    EncodeShape.Statement (.rxCont src dlc data) := rfl

theorem EncodeShape.rxReservedKind (kind : BitVec 3) (src : BitVec 8) (dlc : BitVec 4) (data : Bytes8) :
    EncodeShape.Statement (.rxReservedKind kind src dlc data) := rfl

end Sys2Proof.Laws
end

