-- ==== Sys2Proof/Laws/Segment.lean ====
section
/-! SUPPORT. The frames of a message: how many there are, and what each of the three shapes holds (30_encoding.md R89,
41_segmenter.md R130 to R132). -/

namespace Sys2Proof.Machine

theorem nframes_of_le {len : Nat} (h : len ≤ 8) : nframes len = 1 := by simp [nframes, h]

/-- A longer message needs at least two frames, its last frame starts before its end, and all its frames reach it. -/
theorem nframes_of_gt {len : Nat} (h : 8 < len) :
    2 ≤ nframes len ∧ len ≤ 6 + 8 * (nframes len - 1) ∧ 6 + 8 * (nframes len - 2) < len := by
  simp only [nframes, if_neg (Nat.not_le.2 h)]
  omega

theorem nframes_pos (len : Nat) : 0 < nframes len := by
  unfold nframes
  split <;> omega

theorem segment_of_le {b : List Byte} (s : BitVec 8) (h : b.length ≤ 8) : segment b s = [singleFrame b s] := by
  simp [segment, h]

theorem segment_of_gt {b : List Byte} (s : BitVec 8) (h : 8 < b.length) :
    segment b s = firstFrame b s :: (List.range (nframes b.length - 1)).map fun j => contFrame b s (j + 1) := by
  simp [segment, Nat.not_le.2 h]

/-- R132: as many frames as R130 says. -/
theorem length_segment (b : List Byte) (s : BitVec 8) : (segment b s).length = nframes b.length := by
  have := nframes_pos b.length
  by_cases h : b.length ≤ 8
  · rw [segment_of_le s h, nframes_of_le h]; rfl
  · rw [segment_of_gt s (by omega)]
    simp only [List.length_cons, List.length_map, List.length_range]
    omega

/-- The frames of a message are of the three shapes. -/
theorem mem_segment {b : List Byte} {s : BitVec 8} {f : Frame} (hf : f ∈ segment b s) :
    (b.length ≤ 8 ∧ f = singleFrame b s) ∨
      (8 < b.length ∧ (f = firstFrame b s ∨ ∃ k, 1 ≤ k ∧ k < nframes b.length ∧ f = contFrame b s k)) := by
  by_cases h : b.length ≤ 8
  · rw [segment_of_le s h, List.mem_singleton] at hf
    exact .inl ⟨h, hf⟩
  · rw [segment_of_gt s (by omega)] at hf
    refine .inr ⟨by omega, ?_⟩
    rcases List.mem_cons.1 hf with rfl | hf
    · exact .inl rfl
    · obtain ⟨j, hj, rfl⟩ := List.mem_map.1 hf
      have := List.mem_range.1 hj
      exact .inr ⟨j + 1, by omega, by omega, rfl⟩

theorem singleFrame_dlc {b : List Byte} (s : BitVec 8) (h : b.length ≤ 8) : (singleFrame b s).dlc.toNat = b.length := by
  simp only [singleFrame, BitVec.toNat_ofNat]
  omega

theorem singleFrame_data {b : List Byte} (s : BitVec 8) (h : b.length ≤ 8) :
    (singleFrame b s).data.toList = b ++ zeros (8 - b.length) := Bytes8.toList_ofList _ h

theorem firstFrame_dlc (b : List Byte) (s : BitVec 8) : (firstFrame b s).dlc.toNat = 8 := rfl

theorem firstFrame_data {b : List Byte} (s : BitVec 8) (h : 8 < b.length) :
    (firstFrame b s).data.toList =
      lowByte (BitVec.ofNat 16 b.length) :: highByte (BitVec.ofNat 16 b.length) :: b.take 6 := by
  have hl : (b.take 6).length = 6 := by simp; omega
  rw [firstFrame, slice_zero, Bytes8.toList_ofList _ (by simp only [List.length_cons, hl]; omega)]
  simp [hl, zeros]

/-- The header of a first frame is the length (R84). -/
theorem headerTotal_firstFrame {b : List Byte} (s : BitVec 8) (h : b.length ≤ 65535) :
    (headerTotal (firstFrame b s).data).toNat = b.length := by
  simp only [headerTotal, firstFrame, Bytes8.ofList, List.getD_cons_zero, List.getD_cons_succ, le16_lowByte_highByte,
    BitVec.toNat_ofNat]
  omega

/-- The payload of the k-th frame fits a frame, and is not empty. -/
theorem contFrame_len {len k : Nat} (h : 8 < len) (hk : 1 ≤ k) (hkn : k < nframes len) :
    6 + 8 * (k - 1) < min len (6 + 8 * k) ∧ min len (6 + 8 * k) - (6 + 8 * (k - 1)) ≤ 8 := by
  have := nframes_of_gt h
  omega

theorem contFrame_dlc {b : List Byte} (s : BitVec 8) {k : Nat} (h : 8 < b.length) (hk : 1 ≤ k)
    (hkn : k < nframes b.length) :
    (contFrame b s k).dlc.toNat = min b.length (6 + 8 * k) - (6 + 8 * (k - 1)) := by
  have := contFrame_len h hk hkn
  simp only [contFrame, BitVec.toNat_ofNat]
  omega

theorem contFrame_data {b : List Byte} (s : BitVec 8) {k : Nat} (h : 8 < b.length) (hk : 1 ≤ k)
    (hkn : k < nframes b.length) :
    (contFrame b s k).data.toList =
      slice b (6 + 8 * (k - 1)) (min b.length (6 + 8 * k)) ++ zeros (8 - (contFrame b s k).dlc.toNat) := by
  have := contFrame_len h hk hkn
  have hl : (slice b (6 + 8 * (k - 1)) (min b.length (6 + 8 * k))).length =
      min b.length (6 + 8 * k) - (6 + 8 * (k - 1)) := by
    rw [length_slice]; omega
  rw [contFrame_dlc s h hk hkn, ← hl]
  exact Bytes8.toList_ofList _ (by omega)

/-- A frame whose data are a payload of `dlc` bytes with zero bytes after it is one the block builds (R87). -/
theorem frameBuilt_of_data {f : Frame} {v : List Byte} (hdlc : f.dlc.toNat ≤ 8) (hv : v.length = f.dlc.toNat)
    (hdata : f.data.toList = v ++ zeros (8 - f.dlc.toNat)) : FrameBuilt f := by
  refine ⟨hdlc, ?_⟩
  rw [slice, List.take_of_length_le (by simp), hdata, List.drop_append_of_le_length (by omega),
    List.drop_eq_nil_of_le (by omega), List.nil_append]

end Sys2Proof.Machine
end

