-- ==== Sys2Proof/Laws/Step.lean ====
section
/-! SUPPORT. Inversion: what each operation, and a step, can do when it answers a next state. Later proofs cite these
instead of unfolding the meanings. -/

namespace Sys2Proof.Machine

/-! ## The transmit side -/

/-- The three ways a SEND completes (R133). -/
theorem execSend_cases {b : List Byte} {s t : State} (h : exec (.send b) s = .next t) :
    s.initDone = true ∧
      ((tooLarge s.cfg b.length = true ∧ t = { s.dropTx .messageTooLarge with result := .status 0x01 }) ∨
        (tooLarge s.cfg b.length = false ∧ canAcquire (nframes b.length) s = false ∧
          t = { s.dropTx .poolExhausted with result := .status 0x02 }) ∨
        (tooLarge s.cfg b.length = false ∧ canAcquire (nframes b.length) s = true ∧
          t = { tryDispatch (storeFrames s (segment b s.localId)) with result := .status 0x00 })) := by
  obtain ⟨hi, h⟩ := whenInitialised_eq_next h
  refine ⟨hi, ?_⟩
  split at h
  · exact .inl ⟨‹_›, finish_eq_next.1 h⟩
  · split at h
    · exact .inr (.inr ⟨by simpa using ‹¬tooLarge _ _ = true›, ‹_›, finish_eq_next.1 h⟩)
    · exact .inr (.inl ⟨by simpa using ‹¬tooLarge _ _ = true›, by simpa using ‹¬canAcquire _ _ = true›,
        finish_eq_next.1 h⟩)

/-- The two ways a FRAME_SENT completes (R142, R143). -/
theorem execFrameSent_cases {s t : State} (h : exec .frameSent s = .next t) :
    s.initDone = true ∧
      ((s.txInflight = true ∧ t = { tryDispatch { s with txInflight := false } with result := .none }) ∨
        (s.txInflight = false ∧ t = { s with result := .none })) := by
  obtain ⟨hi, h⟩ := whenInitialised_eq_next h
  refine ⟨hi, ?_⟩
  split at h
  · exact .inl ⟨‹_›, finish_eq_next.1 h⟩
  · exact .inr ⟨by simpa using ‹¬s.txInflight = true›, finish_eq_next.1 h⟩

/-- DISPATCH completes in one way (R144). -/
theorem execDispatch_cases {s t : State} (h : exec .dispatch s = .next t) :
    s.initDone = true ∧ t = { tryDispatch s with result := .none } := by
  obtain ⟨hi, h⟩ := whenInitialised_eq_next h
  exact ⟨hi, finish_eq_next.1 h⟩

/-! ## The receive side -/

/-- The two ways a RECV completes (R194, R195). -/
theorem execRecv_cases {m : Half} {s t : State} (h : exec (.recv m) s = .next t) :
    s.initDone = true ∧
      ((dqEmpty s = true ∧ t = { s with result := .response false 0 0 [] }) ∨
        (dqEmpty s = false ∧ t = { (dqPop s).2 with result := responseOf (dqPop s).1 m })) := by
  obtain ⟨hi, h⟩ := whenInitialised_eq_next h
  refine ⟨hi, ?_⟩
  split at h
  · exact .inl ⟨‹_›, finish_eq_next.1 h⟩
  · exact .inr ⟨by simpa using ‹¬dqEmpty s = true›, finish_eq_next.1 h⟩

/-- What a received frame of source `src` can do to the state (R161 to R172): a drop that touches no slot; a drop that
idles the slot; a delivery with the slot idle; or a partial message in the slot. A message delivered fits M, and a
partial stored is a legal one, if the slot was legal. -/
inductive Received (src : BitVec 8) (s : State) : State → Prop where
  | drop (c : RxCause) : Received src s (s.dropRx c)
  | idleDrop (c : RxCause) : Received src s ((s.idleRxSlot src).dropRx c)
  | deliver (m : List Byte) (fits : RxSlotOk s.cfg.maxMsg (s.rxSlot src) → m.length ≤ s.cfg.maxMsg) :
      Received src s (dqPush src m (s.idleRxSlot src))
  | store (r : RxSlot) (legal : s.cfg.maxMsg ≤ 65535 → RxSlotOk s.cfg.maxMsg (s.rxSlot src) → RxSlotOk s.cfg.maxMsg r) :
      Received src s (s.setRxSlot src r)

@[simp] theorem length_payloadFrom (i : Nat) (dlc : BitVec 4) (data : Bytes8) :
    (payloadFrom i dlc data).length = min dlc.toNat 8 - i := by
  simp [payloadFrom]

theorem length_payloadFrom_le (i : Nat) (dlc : BitVec 4) (data : Bytes8) :
    (payloadFrom i dlc data).length ≤ dlc.toNat - i := by
  rw [length_payloadFrom]; omega

theorem setRxSlot_idleRxSlot (src : BitVec 8) (r : RxSlot) (s : State) :
    (s.idleRxSlot src).setRxSlot src r = s.setRxSlot src r := by
  simp [State.idleRxSlot, State.setRxSlot]

theorem received_receiveSingle (src : BitVec 8) (dlc : BitVec 4) (data : Bytes8) (s : State) :
    Received src s (receiveSingle src dlc data s) := by
  unfold receiveSingle
  dsimp only
  split
  · exact .idleDrop _
  · rename_i h
    refine .deliver _ fun _ => ?_
    have := length_payloadFrom_le 0 dlc data
    simp only [State.idleRxSlot_cfg] at h
    omega

theorem received_receiveFirst (src : BitVec 8) (dlc : BitVec 4) (data : Bytes8) (s : State) (hdlc : dlc.toNat ≤ 8) :
    Received src s (receiveFirst src dlc data s) := by
  unfold receiveFirst
  dsimp only
  split
  · exact .idleDrop _
  split
  · exact .idleDrop _
  split
  · exact .idleDrop _
  split
  · rename_i h2 hM hk hkT
    refine .deliver _ fun _ => ?_
    simp only [State.idleRxSlot_cfg, length_payloadFrom] at *
    omega
  · rename_i h2 hM hk hkT
    rw [setRxSlot_idleRxSlot]
    refine .store _ fun hmax _ => ?_
    simp only [State.idleRxSlot_cfg] at hM ⊢
    have hlen : (payloadFrom 2 dlc data).length = dlc.toNat - 2 := by rw [length_payloadFrom]; omega
    have hacc : (BitVec.ofNat 16 (dlc.toNat - 2)).toNat = dlc.toNat - 2 := by
      simp only [BitVec.toNat_ofNat]; omega
    refine ⟨by simp [hlen]; omega, ?_⟩
    simp only [if_true, hacc]
    refine ⟨by omega, by omega, ?_⟩
    rw [List.drop_append_of_le_length (by omega), List.drop_eq_nil_of_le (by omega), List.nil_append]

/-- Appending a payload at `acc` of a legal active slot (R168). -/
theorem memWrite_active {maxMsg : Nat} {r : RxSlot} (hr : RxSlotOk maxMsg r) (hact : r.active = true)
    (v : List Byte) :
    memWrite r.buf r.acc.toNat v =
      r.buf.take r.acc.toNat ++ v ++ zeros (maxMsg - (r.acc.toNat + v.length)) := by
  obtain ⟨hlen, h⟩ := hr
  rw [if_pos hact] at h
  have : r.buf.drop (r.acc.toNat + v.length) = zeros (maxMsg - (r.acc.toNat + v.length)) := by
    rw [← List.drop_drop, h.2.2, zeros, List.drop_replicate, zeros]
    congr 1
    omega
  rw [memWrite, this]

theorem received_receiveCont (src : BitVec 8) (dlc : BitVec 4) (data : Bytes8) (s : State) (hdlc : dlc.toNat ≤ 8) :
    Received src s (receiveCont src dlc data s) := by
  unfold receiveCont
  dsimp only
  split
  · exact .drop _
  split
  · exact .idleDrop _
  have hlen : (payloadFrom 0 dlc data).length = dlc.toNat := by rw [length_payloadFrom]; omega
  split
  · rename_i hact hle heq
    refine .deliver _ fun hr => ?_
    have hact' : (s.rxSlot src).active = true := by simpa using hact
    have htot := hr.2
    rw [if_pos hact'] at htot
    simp only [memRead, length_slice]
    omega
  · rename_i hact hle hne
    refine .store _ fun hmax hr => ?_
    have hact' : (s.rxSlot src).active = true := by simpa using hact
    have hw := memWrite_active hr hact' (payloadFrom 0 dlc data)
    obtain ⟨hblen, htot⟩ := hr
    rw [if_pos hact'] at htot
    have hacc : (BitVec.ofNat 16 ((s.rxSlot src).acc.toNat + dlc.toNat)).toNat =
        (s.rxSlot src).acc.toNat + dlc.toNat := by
      simp only [BitVec.toNat_ofNat]; omega
    refine ⟨?_, ?_⟩
    · dsimp only
      rw [length_memWrite _ _ _ (by omega), hblen]
    · simp only [hact', if_true, hacc]
      refine ⟨by omega, htot.2.1, ?_⟩
      rw [hw, hlen, List.drop_append_of_le_length (by simp; omega), List.drop_eq_nil_of_le (by simp; omega),
        List.nil_append]

theorem received_withLegalDlc {src : BitVec 8} {dlc : BitVec 4} {s u : State}
    (h : dlc.toNat ≤ 8 → Received src s u) : Received src s (withLegalDlc dlc s u) := by
  unfold withLegalDlc
  split
  · exact .drop _
  · exact h (by omega)

/-- Every operation that receives a frame does one of the things of `Received` to the state. -/
theorem received_of_exec {i : Instr} {src : BitVec 8} {s t : State} (hsrc : sourceOf i = some src)
    (h : exec i s = .next t) : s.initDone = true ∧ ∃ u, Received src s u ∧ t = { u with result := .none } := by
  cases i with
  | frameReceived id dlc data =>
    obtain ⟨hi, h⟩ := whenInitialised_eq_next h
    refine ⟨hi, _, ?_, finish_eq_next.1 h⟩
    obtain rfl : srcOf id = src := by simpa [sourceOf] using hsrc
    by_cases hd : 8 < dlc.toNat
    · simp only [classify, if_pos hd]; exact .drop _
    · simp only [classify, if_neg hd]
      split
      · exact .drop _
      · exact received_receiveSingle _ _ _ _
      · exact received_receiveFirst _ _ _ _ (by omega)
      · exact received_receiveCont _ _ _ _ (by omega)
      · exact .drop _
  | rxSingle src' dlc data =>
    obtain ⟨hi, h⟩ := whenInitialised_eq_next h
    obtain rfl : src' = src := by simpa [sourceOf] using hsrc
    exact ⟨hi, _, received_withLegalDlc fun _ => received_receiveSingle _ _ _ _, finish_eq_next.1 h⟩
  | rxFirst src' dlc data =>
    obtain ⟨hi, h⟩ := whenInitialised_eq_next h
    obtain rfl : src' = src := by simpa [sourceOf] using hsrc
    exact ⟨hi, _, received_withLegalDlc (received_receiveFirst _ _ _ _), finish_eq_next.1 h⟩
  | rxCont src' dlc data =>
    obtain ⟨hi, h⟩ := whenInitialised_eq_next h
    obtain rfl : src' = src := by simpa [sourceOf] using hsrc
    exact ⟨hi, _, received_withLegalDlc (received_receiveCont _ _ _ _), finish_eq_next.1 h⟩
  | rxReservedKind kind src' dlc data =>
    obtain ⟨hi, h⟩ := whenInitialised_eq_next h
    obtain rfl : src' = src := by simpa [sourceOf] using hsrc
    exact ⟨hi, _, received_withLegalDlc fun _ => .drop _, finish_eq_next.1 h⟩
  | _ => cases hsrc

/-- A receive operation is RECV or the reception of a frame. -/
theorem isReceive_cases {i : Instr} (h : isReceive i = true) :
    (∃ m, i = .recv m) ∨ ∃ src, sourceOf i = some src := by
  cases i <;> simp_all [isReceive, sourceOf]

/-- A transmit operation is SEND, FRAME_SENT or DISPATCH. -/
theorem isTransmit_cases {i : Instr} (h : isTransmit i = true) :
    (∃ b, i = .send b) ∨ i = .frameSent ∨ i = .dispatch := by
  cases i <;> simp_all [isTransmit]

/-- The operations: INIT, a reserved code, a transmit operation or a receive operation. -/
theorem instr_cases (i : Instr) :
    (∃ id, i = .init id) ∨ (∃ code, i = .reservedCmd code) ∨ isTransmit i = true ∨ isReceive i = true := by
  cases i <;> simp [isTransmit, isReceive]

/-- A reserved code never completes (R97). -/
theorem exec_reservedCmd_ne_next (code : Byte) (s t : State) : exec (.reservedCmd code) s ≠ .next t := nofun

/-! ## Completion -/

/-- After INIT every operation but a reserved code completes. -/
theorem exec_completes {i : Instr} {s : State} (hi : s.initDone = true) (hr : ∀ code, i ≠ .reservedCmd code) :
    ∃ t, exec i s = .next t := by
  cases i with
  | init id => exact ⟨_, rfl⟩
  | reservedCmd code => exact absurd rfl (hr code)
  | send b =>
    simp only [exec, execSend, whenInitialised_of_true hi, rejectSend]
    repeat' split
    all_goals exact ⟨_, rfl⟩
  | recv m =>
    simp only [exec, execRecv, whenInitialised_of_true hi]
    split
    all_goals exact ⟨_, rfl⟩
  | frameSent =>
    simp only [exec, execFrameSent, whenInitialised_of_true hi]
    split
    all_goals exact ⟨_, rfl⟩
  | _ => exact ⟨_, whenInitialised_of_true hi _⟩

/-- Before INIT every operation but INIT and a reserved code is refused (R261). -/
theorem exec_refused_before_init {i : Instr} {s : State} (hs : s.initDone = false) (hi : ∀ id, i ≠ .init id)
    (hr : ∀ code, i ≠ .reservedCmd code) : exec i s = .refused .notInitialised := by
  cases i with
  | init id => exact absurd rfl (hi id)
  | reservedCmd code => exact absurd rfl (hr code)
  | _ => exact whenInitialised_of_false hs _

/-- No operation is refused as an invalid operand: that is the decoder's refusal (R99). -/
theorem exec_ne_invalidOperand (i : Instr) (s : State) : exec i s ≠ .refused .invalidOperand := by
  by_cases hr : ∃ code, i = .reservedCmd code
  · obtain ⟨code, rfl⟩ := hr; nofun
  by_cases hx : ∃ id, i = .init id
  · obtain ⟨id, rfl⟩ := hx; nofun
  have hr' : ∀ code, i ≠ .reservedCmd code := fun code h => hr ⟨code, h⟩
  by_cases hi : s.initDone = true
  · obtain ⟨t, ht⟩ := exec_completes hi hr'
    simp [ht]
  · rw [exec_refused_before_init (by simpa using hi) (fun id h => hx ⟨id, h⟩) hr']; nofun

/-- A run of operations followed by more of them. -/
theorem execAll_append {is js : List Instr} {s t : State} (h : execAll is s = .next t) :
    execAll (is ++ js) s = execAll js t := by
  induction is generalizing s with
  | nil => simp only [execAll, Host.Outcome.next.injEq] at h; rw [h, List.nil_append]
  | cons i is ih =>
    rw [List.cons_append]
    rw [execAll] at h ⊢
    cases hu : exec i s with
    | next u => rw [hu] at h; exact ih h
    | fault => rw [hu] at h; cases h
    | refused => rw [hu] at h; cases h

/-! ## Dispatch and reception without the invariant -/

/-- With a frame in flight `try_dispatch` does nothing (R140). -/
theorem tryDispatch_of_inflight {s : State} (h : s.txInflight = true) : tryDispatch s = s := by
  simp [tryDispatch, h]

/-- The events of `try_dispatch`, in every state (R140): none, a false query, or a true query and a frame. -/
theorem tryDispatch_events (s : State) : ∃ es, (tryDispatch s).trace = s.trace ++ es ∧
    ((es = [] ∧ (tryDispatch s).txInflight = s.txInflight) ∨
      (s.txInflight = false ∧ es = [.roomQuery false] ∧ (tryDispatch s).txInflight = false) ∨
      (s.txInflight = false ∧ ∃ f, es = [.roomQuery true, .sendFrame f] ∧ (tryDispatch s).txInflight = true)) := by
  unfold tryDispatch
  split
  · exact ⟨[], by simp, .inl ⟨rfl, rfl⟩⟩
  · rename_i h
    have hf : s.txInflight = false := by
      by_contra h'
      exact h (by simp [Bool.not_eq_false _ ▸ h'])
    split
    · rename_i hr
      exact ⟨[.roomQuery true, .sendFrame _], by simp [hr]; rfl, .inr (.inr ⟨hf, _, rfl, rfl⟩)⟩
    · rename_i hr
      exact ⟨[.roomQuery false], by simpa using hr, .inr (.inl ⟨hf, rfl, by simpa using hf⟩)⟩

/-- A receive operation leaves the transmit side alone and emits at most one drop notification. -/
theorem receive_frame {i : Instr} {s t : State} (hi : isReceive i = true) (h : exec i s = .next t) :
    (t.trace = s.trace ∨ ∃ c, t.trace = s.trace ++ [.rxDropped c]) ∧ t.txInflight = s.txInflight ∧
      t.txPool = s.txPool ∧ t.txRd = s.txRd ∧ t.txWr = s.txWr ∧ t.txDrops = s.txDrops ∧
      t.roomAnswers = s.roomAnswers ∧ t.roomDraws = s.roomDraws ∧ t.cfg = s.cfg := by
  rcases isReceive_cases hi with ⟨m, rfl⟩ | ⟨src, hsrc⟩
  · obtain ⟨-, ⟨-, rfl⟩ | ⟨-, rfl⟩⟩ := execRecv_cases h <;> simp
  · obtain ⟨-, u, hu, rfl⟩ := received_of_exec hsrc h
    cases hu with
    | drop c => exact ⟨.inr ⟨c, rfl⟩, rfl, rfl, rfl, rfl, rfl, rfl, rfl, rfl⟩
    | idleDrop c => exact ⟨.inr ⟨c, rfl⟩, rfl, rfl, rfl, rfl, rfl, rfl, rfl, rfl⟩
    | store r _ => exact ⟨.inl rfl, rfl, rfl, rfl, rfl, rfl, rfl, rfl, rfl⟩
    | deliver m _ =>
      refine ⟨?_, by simp⟩
      unfold dqPush
      split
      · exact .inr ⟨_, rfl⟩
      · exact .inl rfl

/-! ## The step -/

/-- How a step that answers a next state came about: nothing arrived, or an operation was decoded and run. -/
theorem step_eq_next {s t : State} (h : step s = .next t) :
    (s.inbox = [] ∧ t = s) ∨
      ∃ a rest i left, s.inbox = a :: rest ∧ decode a = .ok (i, left) ∧
        exec i { s with inbox := pendingAfter left rest } = .next t := by
  unfold step at h
  split at h
  · cases h; exact .inl ⟨‹_›, rfl⟩
  · split at h
    · cases h
    · exact .inr ⟨_, _, _, _, ‹_›, ‹_›, h⟩

theorem step_of_decode {s : State} {a : Arrival} {rest : List Arrival} {i : Instr} {left : List Byte}
    (hs : s.inbox = a :: rest) (hd : decode a = .ok (i, left)) :
    step s = exec i { s with inbox := pendingAfter left rest } := by
  simp only [step, hs, hd]

theorem step_of_decode_error {s : State} {a : Arrival} {rest : List Arrival} {e : DecodeError}
    (hs : s.inbox = a :: rest) (hd : decode a = .error e) : step s = .refused .invalidOperand := by
  simp only [step, hs, hd]

end Sys2Proof.Machine
end

