-- ==== Sys2Proof/Laws/Receive.lean ====
section
/-! SUPPORT. The reception of a frame of each kind as one equation, and what the delivery of a message does
(42_reassembler.md R160 to R170). -/

namespace Sys2Proof.Machine

theorem classify_mkid {k : BitVec 3} {dlc : BitVec 4} (src : BitVec 8) (hd : dlc.toNat ≤ 8) :
    classify (mkid k src) dlc = match k.toNat with
      | 0 => .single
      | 1 => .first
      | 2 => .cont
      | _ => .reserved := by
  refine (if_neg (by omega)).trans ?_
  exact congrArg (fun x : BitVec 3 => match x.toNat with
    | 0 => FrameClass.single
    | 1 => .first
    | 2 => .cont
    | _ => .reserved) (kindOf_mkid k src)

variable {i : Instr} {src : BitVec 8} {dlc : BitVec 4} {data : Bytes8} {s : State}

theorem exec_single (hi : s.initDone = true) (hd : dlc.toNat ≤ 8)
    (h : i = .rxSingle src dlc data ∨ i = .frameReceived (mkid 0 src) dlc data) :
    exec i s = .next { receiveSingle src dlc data s with result := .none } := by
  rcases h with rfl | rfl
  · simp only [exec, execRxSingle, whenInitialised_of_true hi, withLegalDlc, if_neg (Nat.not_lt.2 hd)]; rfl
  · simp only [exec, execFrameReceived, whenInitialised_of_true hi, classify_mkid src hd, srcOf_mkid]; rfl

theorem exec_first (hi : s.initDone = true) (hd : dlc.toNat ≤ 8)
    (h : i = .rxFirst src dlc data ∨ i = .frameReceived (mkid 1 src) dlc data) :
    exec i s = .next { receiveFirst src dlc data s with result := .none } := by
  rcases h with rfl | rfl
  · simp only [exec, execRxFirst, whenInitialised_of_true hi, withLegalDlc, if_neg (Nat.not_lt.2 hd)]; rfl
  · simp only [exec, execFrameReceived, whenInitialised_of_true hi, classify_mkid src hd, srcOf_mkid]; rfl

theorem exec_cont (hi : s.initDone = true) (hd : dlc.toNat ≤ 8)
    (h : i = .rxCont src dlc data ∨ i = .frameReceived (mkid 2 src) dlc data) :
    exec i s = .next { receiveCont src dlc data s with result := .none } := by
  rcases h with rfl | rfl
  · simp only [exec, execRxCont, whenInitialised_of_true hi, withLegalDlc, if_neg (Nat.not_lt.2 hd)]; rfl
  · simp only [exec, execFrameReceived, whenInitialised_of_true hi, classify_mkid src hd, srcOf_mkid]; rfl

theorem Delivery_congr {m : List Byte} {s s' t : State} (h : Delivery src m s t) (h1 : s.dq = s'.dq)
    (h2 : s.dqRd = s'.dqRd) (h3 : s.dqWr = s'.dqWr) (h4 : s.cfg = s'.cfg) (h5 : s.rxDrops = s'.rxDrops)
    (h6 : s.trace = s'.trace) : Delivery src m s' t := by
  unfold Delivery at *
  have hc : dqCount s = dqCount s' := by simp [dqCount, h1]
  rw [queuedMessages_congr h1 h2 h4] at h
  simpa only [hc, h1, h3, h4, h5, h6] using h

/-- `complete` on an idle slot (R170): a delivery that writes the slot, the queue, the drop counter and the events. -/
theorem complete_idle_spec (src : BitVec 8) (m : List Byte) (s : State) (hc : s.cfg.Legal) (hq : DqRing s)
    (hm : m.length ≤ s.cfg.maxMsg) :
    DqRing (complete src m (s.idleRxSlot src)) ∧ Delivery src m s (complete src m (s.idleRxSlot src)) ∧
      complete src m (s.idleRxSlot src) = { s with
        rs := s.rs.set src.toNat (idleSlot s.cfg.maxMsg)
        dq := (complete src m (s.idleRxSlot src)).dq
        dqWr := (complete src m (s.idleRxSlot src)).dqWr
        rxDrops := (complete src m (s.idleRxSlot src)).rxDrops
        trace := (complete src m (s.idleRxSlot src)).trace } := by
  have hM := hc.2.2.1
  obtain ⟨h1, h2⟩ := dqPush_spec (s := s.idleRxSlot src) hq hc.2.2.2.2 src m (by omega)
  exact ⟨h1, Delivery_congr h2 rfl rfl rfl rfl rfl rfl,
    by apply State.ext <;> simp [complete, State.idleRxSlot, State.setRxSlot]⟩

/-- A slot that was set reads as set. -/
theorem rxSlot_set (s : State) (src : BitVec 8) (r : RxSlot) (h : s.rs.length = 256) :
    ({ s with rs := s.rs.set src.toNat r } : State).rxSlot src = r := by
  have := src.isLt
  exact getD_set_eq _ _ (by omega)

/-- With 256 slots, every source's slot is one of them. -/
theorem rxSlot_mem (s : State) (src : BitVec 8) (h : s.rs.length = 256) : s.rxSlot src ∈ s.rs := by
  have := src.isLt
  rw [State.rxSlot, List.getD_eq_getElem?_getD, List.getElem?_eq_getElem (by omega)]
  exact List.getElem_mem _

/-- The first bytes of a message and the pieces after them make its beginning (R60, R89). -/
theorem take_append_slices (b : List Byte) (n : Nat) :
    b.take 6 ++ (List.range n).flatMap (fun j => slice b (6 + 8 * j) (min b.length (6 + 8 * (j + 1)))) =
      b.take (6 + 8 * n) := by
  induction n with
  | zero => simp
  | succ n ih =>
    rw [List.range_succ, List.flatMap_append, ← List.append_assoc, ih, List.flatMap_singleton, ← slice_zero, ← slice_zero]
    by_cases h : 6 + 8 * n ≤ b.length
    · rw [slice_append _ (by omega) (by omega), slice_zero, slice_zero]
      by_cases h2 : b.length ≤ 6 + 8 * (n + 1)
      · rw [Nat.min_eq_left h2, List.take_of_length_le (Nat.le_refl _), List.take_of_length_le h2]
      · rw [Nat.min_eq_right (by omega)]
    · have : slice b (6 + 8 * n) (min b.length (6 + 8 * (n + 1))) = [] := by
        apply List.eq_nil_of_length_eq_zero
        rw [length_slice]
        omega
      rw [this, slice_zero, slice_zero, List.append_nil, List.take_of_length_le (by omega),
        List.take_of_length_le (by omega)]

end Sys2Proof.Machine
end

