-- ==== Sys2Proof/Laws/Sides.lean ====
section
/-! SUPPORT. What one side of the core does not read (R72): an operation of one side, run on a state whose other side
is replaced; a frame of one source, with another source's slot replaced (R171); and that storing and releasing frames
keep what a pool slot holds (R27, R82, R132). -/

namespace Sys2Proof.Machine

theorem bv_add_zero (x : BitVec 32) : x + 0 = x := by simp

/-- `s` with another receive side and other outputs. -/
def withReceiveSide (s : State) (rs : List RxSlot) (dq : List DqEntry) (a b : Half) (rx tx : BitVec 32) (tr : List
    Event) (r : Result) : State :=
  { s with rs := rs, dq := dq, dqRd := a, dqWr := b, rxDrops := rx, txDrops := tx, trace := tr, result := r }

theorem tryDispatch_withReceiveSide (s : State) : ∃ es, ∀ rs dq a b rx tx tr r, tryDispatch (withReceiveSide s rs dq
    a b rx tx tr r) = withReceiveSide (tryDispatch s) rs dq a b rx tx (tr ++ es) r := by
  unfold tryDispatch
  by_cases h : (s.txInflight || txEmpty s) = true
  · refine ⟨[], fun rs dq a b rx tx tr r => ?_⟩
    have : ((withReceiveSide s rs dq a b rx tx tr r).txInflight || txEmpty (withReceiveSide s rs dq a b rx tx tr r))
        = true := h
    rw [if_pos this, if_pos h, List.append_nil]
  · by_cases h2 : roomAnswer s = true
    · refine ⟨[.roomQuery (roomAnswer s), .sendFrame (releaseHead s).1], fun rs dq a b rx tx tr r => ?_⟩
      have h' : ¬ ((withReceiveSide s rs dq a b rx tx tr r).txInflight || txEmpty (withReceiveSide s rs dq a b rx tx
          tr r)) = true := h
      have h2' : roomAnswer (withReceiveSide s rs dq a b rx tx tr r) = true := h2
      rw [if_neg h', if_neg h, if_pos h2, if_pos h2']
      apply State.ext <;> first | rfl | skip
      simp [withReceiveSide]; exact ⟨rfl, rfl⟩
    · refine ⟨[.roomQuery (roomAnswer s)], fun rs dq a b rx tx tr r => ?_⟩
      have h' : ¬ ((withReceiveSide s rs dq a b rx tx tr r).txInflight || txEmpty (withReceiveSide s rs dq a b rx tx
          tr r)) = true := h
      have h2' : ¬ roomAnswer (withReceiveSide s rs dq a b rx tx tr r) = true := h2
      rw [if_neg h', if_neg h, if_neg h2, if_neg h2']
      rfl

theorem storeFrames_withReceiveSide (s : State) (fs : List Frame) : ∀ rs dq a b rx tx tr r, storeFrames
    (withReceiveSide s rs dq a b rx tx tr r) fs = withReceiveSide (storeFrames s fs) rs dq a b rx tx tr r := by
  intro rs dq a b rx tx tr r
  induction fs generalizing s with
  | nil => rfl
  | cons f fs ih =>
    simp only [storeFrames, List.foldl_cons] at *
    rw [← ih]
    congr 1
    unfold storeFrame acquire
    dsimp only
    have : ((withReceiveSide s rs dq a b rx tx tr r).poolSlot (withReceiveSide s rs dq a b rx tx tr
        r).txWr.toNat).used = (s.poolSlot s.txWr.toNat).used := rfl
    rw [this]
    by_cases h : (s.poolSlot s.txWr.toNat).used = true
    · rw [if_pos h, if_pos h]
    · rw [if_neg h, if_neg h]; rfl

/-- R72: what a transmit operation does does not depend on the receive side. -/
theorem exec_withReceiveSide {i : Instr} {s t : State} (hx : isTransmit i = true) (h : exec i s = .next t) : ∃ es d,
    (t.txDrops = s.txDrops + d) ∧ ∀ rs dq a b rx tx tr r, exec i (withReceiveSide s rs dq a b rx tx tr r) = .next
    (withReceiveSide t rs dq a b rx (tx + d) (tr ++ es) t.result) := by
  rcases isTransmit_cases hx with ⟨b, rfl⟩ | rfl | rfl
  · obtain ⟨hi, ⟨h1, rfl⟩ | ⟨h1, h2, rfl⟩ | ⟨h1, h2, rfl⟩⟩ := execSend_cases h
    · refine ⟨[.txDropped .messageTooLarge], 1, rfl, fun rs dq a b' rx tx tr r => ?_⟩
      show whenInitialised _ _ = _
      rw [whenInitialised_of_true (by exact hi), if_pos (by exact h1)]; rfl
    · refine ⟨[.txDropped .poolExhausted], 1, rfl, fun rs dq a b' rx tx tr r => ?_⟩
      show whenInitialised _ _ = _
      have h1' : ¬ tooLarge (withReceiveSide s rs dq a b' rx tx tr r).cfg b.length = true := by simpa
          [withReceiveSide] using h1
      have h2' : ¬ canAcquire (nframes b.length) (withReceiveSide s rs dq a b' rx tx tr r) = true := by
        have : canAcquire (nframes b.length) (withReceiveSide s rs dq a b' rx tx tr r) = canAcquire (nframes
            b.length) s := rfl
        simp [this, h2]
      rw [whenInitialised_of_true (by exact hi), if_neg h1', if_neg h2']; rfl
    · obtain ⟨es, he⟩ := tryDispatch_withReceiveSide (storeFrames s (segment b s.localId))
      refine ⟨es, 0, by simp, fun rs dq a b' rx tx tr r => ?_⟩
      show whenInitialised _ _ = _
      have h1' : ¬ tooLarge (withReceiveSide s rs dq a b' rx tx tr r).cfg b.length = true := by simpa
          [withReceiveSide] using h1
      have h2' : canAcquire (nframes b.length) (withReceiveSide s rs dq a b' rx tx tr r) = true := h2
      rw [whenInitialised_of_true (by exact hi), if_neg h1', if_pos h2']
      have := storeFrames_withReceiveSide s (segment b s.localId) rs dq a b' rx tx tr r
      show finish _ (tryDispatch (storeFrames (withReceiveSide s rs dq a b' rx tx tr r) (segment b s.localId))) = _
      rw [this, he, bv_add_zero]; rfl
  · obtain ⟨hi, ⟨h1, rfl⟩ | ⟨h1, rfl⟩⟩ := execFrameSent_cases h
    · obtain ⟨es, he⟩ := tryDispatch_withReceiveSide { s with txInflight := false }
      refine ⟨es, 0, by simp, fun rs dq a b' rx tx tr r => ?_⟩
      show whenInitialised _ _ = _
      rw [whenInitialised_of_true (by exact hi), if_pos (by exact h1)]
      show finish _ (tryDispatch (withReceiveSide { s with txInflight := false } rs dq a b' rx tx tr r)) = _
      rw [he, bv_add_zero]; rfl
    · refine ⟨[], 0, by simp, fun rs dq a b' rx tx tr r => ?_⟩
      show whenInitialised _ _ = _
      have h1' : ¬ (withReceiveSide s rs dq a b' rx tx tr r).txInflight = true := by simpa [withReceiveSide] using h1
      rw [whenInitialised_of_true (by exact hi), if_neg h1', bv_add_zero, List.append_nil]; rfl
  · obtain ⟨hi, rfl⟩ := execDispatch_cases h
    obtain ⟨es, he⟩ := tryDispatch_withReceiveSide s
    refine ⟨es, 0, by simp, fun rs dq a b' rx tx tr r => ?_⟩
    show whenInitialised _ _ = _
    rw [whenInitialised_of_true (by exact hi), he, bv_add_zero]; rfl

/-- `s` with the transmit side of `u`, and other outputs. -/
def withTransmitSide (s u : State) (l : BitVec 8) (rx : BitVec 32) (tr : List Event) (r : Result) : State :=
  { s with
    localId := l, txPool := u.txPool, txRd := u.txRd, txWr := u.txWr, txInflight := u.txInflight
    txDrops := u.txDrops, roomAnswers := u.roomAnswers, roomDraws := u.roomDraws, inbox := u.inbox
    rxDrops := rx, trace := tr, result := r }

theorem dqPush_withTransmitSide (src m) (s : State) : ∃ es d, (dqPush src m s).rxDrops = s.rxDrops + d ∧ (dqPush src
    m s).trace = s.trace ++ es ∧ ∀ u l rx tr r, dqPush src m (withTransmitSide s u l rx tr r) = withTransmitSide
    (dqPush src m s) u l (rx + d) (tr ++ es) r := by
  unfold dqPush
  by_cases h : dqFull s = true
  · refine ⟨[.rxDropped .dqFull], 1, by rw [if_pos h]; rfl, by rw [if_pos h]; rfl, fun u l rx tr r => ?_⟩
    have h' : dqFull (withTransmitSide s u l rx tr r) = true := h
    rw [if_pos h', if_pos h]; rfl
  · refine ⟨[], 0, by rw [if_neg h]; simp, by rw [if_neg h]; simp, fun u l rx tr r => ?_⟩
    have h' : ¬ dqFull (withTransmitSide s u l rx tr r) = true := h
    rw [if_neg h', if_neg h, bv_add_zero, List.append_nil]; rfl

/-- At `s`, `f` neither reads nor writes the transmit side. -/
def IgnoresTransmit (f : State → State) (s : State) : Prop := ∃ es d, (f s).rxDrops = s.rxDrops + d ∧ (f s).trace =
    s.trace ++ es ∧ ∀ u l rx tr r, f (withTransmitSide s u l rx tr r) = withTransmitSide (f s) u l (rx + d) (tr ++
    es) r

theorem ignores_drop (c : RxCause) (s : State) : IgnoresTransmit (State.dropRx c) s := ⟨[.rxDropped c], 1, rfl, rfl,
    fun _ _ _ _ _ => rfl⟩
theorem ignores_idle (src) (f) (s : State) (h : IgnoresTransmit f (s.idleRxSlot src)) : IgnoresTransmit (fun s => f
    (s.idleRxSlot src)) s := by
  obtain ⟨es, d, h1, h2, h3⟩ := h
  exact ⟨es, d, h1, h2, fun u l rx tr r => h3 u l rx tr r⟩

theorem ignores_single (src dlc data) (s : State) : IgnoresTransmit (receiveSingle src dlc data) s := by
  refine ignores_idle src (fun s => if s.cfg.maxMsg < dlc.toNat then s.dropRx .oversize
  else complete src (payloadFrom 0 dlc data) s) s ?_
  by_cases h : s.cfg.maxMsg < dlc.toNat
  · have := ignores_drop .oversize (s.idleRxSlot src)
    unfold IgnoresTransmit at *
    have e : ∀ u l rx tr r, (withTransmitSide (s.idleRxSlot src) u l rx tr r).cfg.maxMsg < dlc.toNat := fun _ _ _ _ _
        => h
    simpa [h, e] using this
  · have := dqPush_withTransmitSide src (payloadFrom 0 dlc data) (s.idleRxSlot src)
    unfold IgnoresTransmit at *
    have e : ∀ u l rx tr r, ¬ (withTransmitSide (s.idleRxSlot src) u l rx tr r).cfg.maxMsg < dlc.toNat := fun _ _ _ _
        _ => h
    simpa [h, e, complete] using this

theorem ignores_ite {p : State → Prop} [DecidablePred p] {f g : State → State} {s : State} (hp : ∀ u l rx tr r, p
    (withTransmitSide s u l rx tr r) ↔ p s) (h1 : p s → IgnoresTransmit f s) (h2 : ¬ p s → IgnoresTransmit g s) :
    IgnoresTransmit (fun s => if p s then f s else g s) s := by
  unfold IgnoresTransmit
  by_cases h : p s
  · obtain ⟨es, d, a, b, c⟩ := h1 h
    refine ⟨es, d, by simpa [h] using a, by simpa [h] using b, fun u l rx tr r => ?_⟩
    show (if p _ then f _ else g _) = withTransmitSide (if p _ then f _ else g _) _ _ _ _ _
    rw [if_pos ((hp ..).2 h), if_pos h]; exact c ..
  · obtain ⟨es, d, a, b, c⟩ := h2 h
    refine ⟨es, d, by simpa [h] using a, by simpa [h] using b, fun u l rx tr r => ?_⟩
    show (if p _ then f _ else g _) = withTransmitSide (if p _ then f _ else g _) _ _ _ _ _
    rw [if_neg (mt (hp ..).1 h), if_neg h]; exact c ..

theorem ignores_first (src dlc data) (s : State) : IgnoresTransmit (receiveFirst src dlc data) s := by
  have hM : ∀ u l rx tr r, (withTransmitSide (s.idleRxSlot src) u l rx tr r).cfg.maxMsg = s.cfg.maxMsg := fun _ _ _ _
      _ => rfl
  refine ignores_idle src (fun s => if dlc.toNat < 2 then s.dropRx .malformedFirst
  else if s.cfg.maxMsg < (headerTotal data).toNat then s.dropRx .oversize
  else if (headerTotal data).toNat < dlc.toNat - 2 then s.dropRx .overrun
  else if dlc.toNat - 2 = (headerTotal data).toNat then complete src (payloadFrom 2 dlc data) s
  else s.setRxSlot src
    { active := true, total := headerTotal data, acc := BitVec.ofNat 16 (dlc.toNat - 2),
      buf := payloadFrom 2 dlc data ++ zeros (s.cfg.maxMsg - (dlc.toNat - 2)) }) s ?_
  refine ignores_ite (p := fun _ => dlc.toNat < 2) (fun u l rx tr r => by rfl) (fun _ => ignores_drop _ _) fun _ => ?_
  refine ignores_ite (p := fun s => s.cfg.maxMsg < (headerTotal data).toNat) (fun u l rx tr r => by rfl) (fun _ =>
      ignores_drop _ _) fun _ => ?_
  refine ignores_ite (p := fun _ => (headerTotal data).toNat < dlc.toNat - 2) (fun u l rx tr r => by rfl) (fun _ =>
      ignores_drop _ _) fun _ => ?_
  refine ignores_ite (p := fun _ => dlc.toNat - 2 = (headerTotal data).toNat) (fun u l rx tr r => by rfl) (fun _ =>
      dqPush_withTransmitSide _ _ _) fun _ => ?_
  exact ⟨[], 0, by simp, by simp, fun u l rx tr r => by rw [bv_add_zero, List.append_nil]; rfl⟩

theorem ignores_cont (src dlc data) (s : State) : IgnoresTransmit (receiveCont src dlc data) s := by
  have hM : ∀ u l rx tr r, (withTransmitSide s u l rx tr r).rxSlot src = s.rxSlot src := fun _ _ _ _ _ => rfl
  unfold IgnoresTransmit receiveCont
  simp only [hM]
  split
  · exact ignores_drop _ _
  split
  · exact ignores_idle src _ s (ignores_drop _ _)
  split
  · exact ignores_idle src (dqPush src _) s (dqPush_withTransmitSide _ _ _)
  · exact ⟨[], 0, by simp, by simp, fun u l rx tr r => by rw [bv_add_zero, List.append_nil]; rfl⟩

theorem ignores_legal (dlc : BitVec 4) (f : State → State) (s) (h : IgnoresTransmit f s) : IgnoresTransmit (fun s =>
    withLegalDlc dlc s (f s)) s := by
  unfold IgnoresTransmit withLegalDlc
  split
  · exact ignores_drop _ _
  · exact h

theorem ignores_exec (f : State → State) {s t : State} (hf : IgnoresTransmit f s) (h : whenInitialised s (finish
    .none (f s)) = .next t) :
  ∃ es d, t.rxDrops = s.rxDrops + d ∧ t.trace = s.trace ++ es ∧ ∀ u l rx tr r, whenInitialised (withTransmitSide s u
      l rx tr r) (finish .none (f (withTransmitSide s u l rx tr r))) = .next (withTransmitSide t u l (rx + d) (tr ++
      es) t.result) := by
  obtain ⟨hi, h⟩ := whenInitialised_eq_next h
  have := finish_eq_next.1 h
  subst this
  obtain ⟨es, d, h1, h2, h3⟩ := hf
  refine ⟨es, d, h1, h2, fun u l rx tr r => ?_⟩
  rw [whenInitialised_of_true (by exact hi), h3]; rfl

/-- R72: what a receive operation does does not depend on the transmit side. -/
theorem exec_withTransmitSide {i : Instr} {s t : State} (hx : isReceive i = true) (h : exec i s = .next t) : ∃ es d,
    t.rxDrops = s.rxDrops + d ∧ t.trace = s.trace ++ es ∧ ∀ u l rx tr r, exec i (withTransmitSide s u l rx tr r) =
    .next (withTransmitSide t u l (rx + d) (tr ++ es) t.result) := by
  cases i with
  | recv m =>
    obtain ⟨hi, ⟨h1, rfl⟩ | ⟨h1, rfl⟩⟩ := execRecv_cases h
    · refine ⟨[], 0, by simp, by simp, fun u l rx tr r => ?_⟩
      show whenInitialised _ _ = _
      rw [whenInitialised_of_true (by exact hi), if_pos (by exact h1), bv_add_zero, List.append_nil]; rfl
    · refine ⟨[], 0, by simp, by simp, fun u l rx tr r => ?_⟩
      have h1' : ¬ dqEmpty (withTransmitSide s u l rx tr r) = true := by
        have : dqEmpty (withTransmitSide s u l rx tr r) = dqEmpty s := rfl
        simp [this, h1]
      show whenInitialised _ _ = _
      rw [whenInitialised_of_true (by exact hi), if_neg h1', bv_add_zero, List.append_nil]; rfl
  | frameReceived id dlc data =>
    refine ignores_exec (fun s => match classify id dlc with
    | .malformedDlc => s.dropRx .malformedDlc
    | .single => receiveSingle (srcOf id) dlc data s
    | .first => receiveFirst (srcOf id) dlc data s
    | .cont => receiveCont (srcOf id) dlc data s
    | .reserved => s.dropRx .reservedKind) ?_ h
    cases classify id dlc
    · exact ignores_drop _ _
    · exact ignores_single _ _ _ _
    · exact ignores_first _ _ _ _
    · exact ignores_cont _ _ _ _
    · exact ignores_drop _ _
  | rxSingle => exact ignores_exec _ (ignores_legal _ _ _ (ignores_single _ _ _ _)) h
  | rxFirst => exact ignores_exec _ (ignores_legal _ _ _ (ignores_first _ _ _ _)) h
  | rxCont => exact ignores_exec _ (ignores_legal _ _ _ (ignores_cont _ _ _ _)) h
  | rxReservedKind => exact ignores_exec _ (ignores_legal _ _ _ (ignores_drop _ _)) h
  | _ => cases hx

/-- `s` with another slot for the source `u`. -/
def withOtherSlot (u : BitVec 8) (r : RxSlot) (s : State) : State := { s with rs := s.rs.set u.toNat r }

theorem toNat_ne {u src : BitVec 8} (h : u ≠ src) : u.toNat ≠ src.toNat := fun e => h (BitVec.eq_of_toNat_eq e)

theorem rxSlot_withOtherSlot {u src : BitVec 8} (h : u ≠ src) (r : RxSlot) (s : State) : (withOtherSlot u r s).rxSlot
    src = s.rxSlot src := by
  simp only [State.rxSlot, withOtherSlot]
  exact getD_set_ne _ (toNat_ne h)

theorem setRxSlot_withOtherSlot {u src : BitVec 8} (h : u ≠ src) (r r' : RxSlot) (s : State) : (withOtherSlot u r
    s).setRxSlot src r' = withOtherSlot u r (s.setRxSlot src r') := by
  simp only [State.setRxSlot, withOtherSlot]
  rw [List.set_comm _ _ (toNat_ne h)]

theorem idleRxSlot_withOtherSlot {u src : BitVec 8} (h : u ≠ src) (r : RxSlot) (s : State) : (withOtherSlot u r
    s).idleRxSlot src = withOtherSlot u r (s.idleRxSlot src) := setRxSlot_withOtherSlot h ..

theorem dqPush_withOtherSlot (u : BitVec 8) (src m) (r : RxSlot) (s : State) : dqPush src m (withOtherSlot u r s) =
    withOtherSlot u r (dqPush src m s) := by
  unfold dqPush
  have : dqFull (withOtherSlot u r s) = dqFull s := rfl
  rw [this]
  split <;> rfl

theorem dropRx_withOtherSlot (u : BitVec 8) (c) (r : RxSlot) (s : State) : (withOtherSlot u r s).dropRx c =
    withOtherSlot u r (s.dropRx c) := rfl

theorem receiveSingle_withOtherSlot {u src : BitVec 8} (h : u ≠ src) (dlc data) (r : RxSlot) (s : State) :
    receiveSingle src dlc data (withOtherSlot u r s) = withOtherSlot u r (receiveSingle src dlc data s) := by
  unfold receiveSingle
  simp only [idleRxSlot_withOtherSlot h, complete, dqPush_withOtherSlot, dropRx_withOtherSlot]
  have : (withOtherSlot u r (s.idleRxSlot src)).cfg = (s.idleRxSlot src).cfg := rfl
  rw [this]
  split <;> rfl

theorem receiveFirst_withOtherSlot {u src : BitVec 8} (h : u ≠ src) (dlc data) (r : RxSlot) (s : State) :
    receiveFirst src dlc data (withOtherSlot u r s) = withOtherSlot u r (receiveFirst src dlc data s) := by
  unfold receiveFirst
  have e : ∀ s : State, (withOtherSlot u r s).cfg = s.cfg := fun _ => rfl
  simp only [idleRxSlot_withOtherSlot h, complete, dqPush_withOtherSlot, dropRx_withOtherSlot, e,
      setRxSlot_withOtherSlot h]
  repeat' split
  all_goals rfl

theorem receiveCont_withOtherSlot {u src : BitVec 8} (h : u ≠ src) (dlc data) (r : RxSlot) (s : State) : receiveCont
    src dlc data (withOtherSlot u r s) = withOtherSlot u r (receiveCont src dlc data s) := by
  unfold receiveCont
  simp only [idleRxSlot_withOtherSlot h, complete, dqPush_withOtherSlot, dropRx_withOtherSlot,
      setRxSlot_withOtherSlot h, rxSlot_withOtherSlot h]
  repeat' split
  all_goals rfl

theorem withLegalDlc_withOtherSlot (u : BitVec 8) (r : RxSlot) (dlc) (f : State → State) (s : State) (h : f
    (withOtherSlot u r s) = withOtherSlot u r (f s)) : withLegalDlc dlc (withOtherSlot u r s) (f (withOtherSlot u r
    s)) = withOtherSlot u r (withLegalDlc dlc s (f s)) := by
  unfold withLegalDlc; split
  · rfl
  · exact h

theorem exec_withOtherSlot (u : BitVec 8) (r : RxSlot) (f : State → State) (s t : State) (h : f (withOtherSlot u r s)
    = withOtherSlot u r (f s)) (ht : whenInitialised s (finish .none (f s)) = .next t) : whenInitialised
    (withOtherSlot u r s) (finish .none (f (withOtherSlot u r s))) = .next (withOtherSlot u r t) := by
  obtain ⟨hi, ht⟩ := whenInitialised_eq_next ht
  have := finish_eq_next.1 ht
  subst this
  rw [whenInitialised_of_true (by exact hi), h]; rfl

theorem mem_set_cases {α} {l : List α} {n : Nat} {a x : α} (h : x ∈ l.set n a) : x = a ∨ x ∈ l :=
    (List.mem_or_eq_of_mem_set h).symm

/-- Storing well built frames of the local source keeps every pool slot as R82 and R132 say. -/
theorem storeFrames_slots_ok (fs : List Frame) (s : State) (l : BitVec 8) (h : ∀ p ∈ s.txPool, PoolSlotOk l p) (hf :
    ∀ f ∈ fs, FrameBuilt f ∧ srcOf f.id = l ∧ (kindOf f.id).toNat ≤ 2) :
   ∀ p ∈ (storeFrames s fs).txPool, PoolSlotOk l p := by
  induction fs generalizing s with
  | nil => exact h
  | cons f fs ih =>
    simp only [storeFrames, List.foldl_cons] at *
    apply ih
    · intro p hp
      unfold storeFrame acquire at hp
      dsimp only at hp
      by_cases hu : (s.poolSlot s.txWr.toNat).used = true
      · rw [if_pos hu] at hp; exact h p hp
      · rw [if_neg hu] at hp
        simp only [State.setPoolSlot, List.set_set, State.poolSlot] at hp
        rcases mem_set_cases hp with rfl | hp
        · by_cases hlt : s.txWr.toNat < s.txPool.length
          · rw [getD_set_eq _ _ hlt]
            simpa [PoolSlotOk] using hf f (by simp)
          · rw [List.set_eq_of_length_le (by omega)] at hp
            exact h _ hp
        · exact h p hp
    · exact fun f hf' => hf f (by simp [hf'])

/-- A dispatch attempt stores no frame. -/
theorem tryDispatch_slots_ok (s : State) (l : BitVec 8) (h : ∀ p ∈ s.txPool, PoolSlotOk l p) : ∀ p ∈ (tryDispatch
    s).txPool, PoolSlotOk l p := by
  unfold tryDispatch
  split
  · exact h
  split
  · intro p hp
    rcases mem_set_cases (show p ∈ s.txPool.set s.txRd.toNat freeSlot from hp) with rfl | hp
    · rfl
    · exact h p hp
  · exact h


end Sys2Proof.Machine
end

