-- ==== Sys2Proof/Tests/Slice0.lean ====
section
/-! SUPPORT. Tests on fixed values, and for every obligation with hypotheses a named witness that meets them. The
expected results of the tests are the vectors of 95_test_vectors.md, named in the docstrings; the words of the decoding
tests are written out from 30_encoding.md R82, R95 and R96. -/

namespace Sys2Proof.Tests

open Sys2Proof Sys2Proof.Machine

/-! ## Well-formedness: an ill-formed term for each check -/

theorem test_wf_refuses_long_send : (Instr.send (List.replicate 65536 0)).wf = false := by
  rw [Instr.wf, List.length_replicate]
  rfl

theorem test_wf_refuses_unreserved_code : (Instr.reservedCmd 0x05).wf = false := rfl

theorem test_wf_refuses_unreserved_kind : (Instr.rxReservedKind 2 5 0 ⟨0, 0, 0, 0, 0, 0, 0, 0⟩).wf = false := rfl

/-! ## Decoding: one word for each constructor -/

/-- `00 09` of V-INIT-1. -/
theorem test_decode_init : decodeCommand [0x00, 0x09] = .ok (.init 9, []) := rfl

/-- `01 02 00 0A 0B` of program P2, with a byte of the next command after it. -/
theorem test_decode_send : decodeCommand [0x01, 0x02, 0x00, 0x0A, 0x0B, 0x05] = .ok (.send [0x0A, 0x0B], [0x05]) := rfl

/-- `02 20 00` of V-DQ-1. -/
theorem test_decode_recv : decodeCommand [0x02, 0x20, 0x00] = .ok (.recv 32, []) := rfl

/-- `03 05 07 09 00 …` of V-RX-16: an illegal DLC is a valid encoding (R99). -/
theorem test_decode_frameReceived : decodeCommand [0x03, 0x05, 0x07, 0x09, 0, 0, 0, 0, 0, 0, 0, 0] =
    .ok (.frameReceived 0x705 9 ⟨0, 0, 0, 0, 0, 0, 0, 0⟩, []) := rfl

/-- `04` of W1. -/
theorem test_decode_frameSent : decodeCommand [0x04] = .ok (.frameSent, []) := rfl

/-- `05` of program P2. -/
theorem test_decode_dispatch : decodeCommand [0x05] = .ok (.dispatch, []) := rfl

/-- `06` of V-ENC-1. -/
theorem test_decode_reservedCmd : decodeCommand [0x06] = .ok (.reservedCmd 0x06, []) := rfl

/-- The identifier 0x005 of W1: kind 0, source 5. -/
theorem test_decode_rxSingle : decodeFrame ⟨0x005, 5, ⟨1, 2, 3, 4, 5, 0, 0, 0⟩⟩ = .rxSingle 5 5 ⟨1, 2, 3, 4, 5, 0, 0, 0⟩ :=
  rfl

/-- The identifier 0x105 of W2: kind 1, source 5. -/
theorem test_decode_rxFirst : decodeFrame ⟨0x105, 8, ⟨0x14, 0, 0, 1, 2, 3, 4, 5⟩⟩ =
    .rxFirst 5 8 ⟨0x14, 0, 0, 1, 2, 3, 4, 5⟩ := rfl

/-- The identifier 0x205 of W2: kind 2, source 5. -/
theorem test_decode_rxCont : decodeFrame ⟨0x205, 6, ⟨0x0E, 0x0F, 0x10, 0x11, 0x12, 0x13, 0, 0⟩⟩ =
    .rxCont 5 6 ⟨0x0E, 0x0F, 0x10, 0x11, 0x12, 0x13, 0, 0⟩ := rfl

/-- The identifier 0x305 of V-RX-15: kind 3, source 5. -/
theorem test_decode_rxReservedKind : decodeFrame ⟨0x305, 2, ⟨1, 2, 0, 0, 0, 0, 0, 0⟩⟩ =
    .rxReservedKind 3 5 2 ⟨1, 2, 0, 0, 0, 0, 0, 0⟩ := rfl

/-- The table's rows with every free bit at zero: a command row has 8 bits, an identifier row two bytes. -/
theorem test_decodeTableWord :
    decodeTableWord 8 0x00 = some (.init 0) ∧ decodeTableWord 8 0x01 = some (.send []) ∧
      decodeTableWord 8 0x02 = some (.recv 0) ∧
      decodeTableWord 8 0x03 = some (.frameReceived 0 0 ⟨0, 0, 0, 0, 0, 0, 0, 0⟩) ∧
      decodeTableWord 8 0x04 = some .frameSent ∧ decodeTableWord 8 0x05 = some .dispatch ∧
      decodeTableWord 8 0x80 = some (.reservedCmd 0x80) ∧
      decodeTableWord 16 0x000 = some (.rxSingle 0 0 ⟨0, 0, 0, 0, 0, 0, 0, 0⟩) ∧
      decodeTableWord 16 0x100 = some (.rxFirst 0 0 ⟨0, 0, 0, 0, 0, 0, 0, 0⟩) ∧
      decodeTableWord 16 0x200 = some (.rxCont 0 0 ⟨0, 0, 0, 0, 0, 0, 0, 0⟩) ∧
      decodeTableWord 16 0x300 = some (.rxReservedKind 3 0 0 ⟨0, 0, 0, 0, 0, 0, 0, 0⟩) := by decide +kernel

/-! ## States of the vectors -/

/-- S0: the state just after `INIT 5`, with P = 4, M = 32, D = 2. -/
def s0 : State := { State.powerOn Config.testVectors 5 with initDone := true }

/-- F0 of V-DISP-3. -/
def frameA : Frame := { id := 0x105, dlc := 8, data := ⟨0x09, 0x00, 1, 2, 3, 4, 5, 6⟩ }

/-- F1 of V-DISP-6. -/
def frameB : Frame := { id := 0x205, dlc := 3, data := ⟨7, 8, 9, 0, 0, 0, 0, 0⟩ }

/-- Two frames queued, none in flight, with the next room answers. -/
def ready (room : List Bool) : State :=
  { s0 with txPool := [⟨true, frameA⟩, ⟨true, frameB⟩, freeSlot, freeSlot], txWr := 2, roomAnswers := room }

/-- The end state of V-DISP-3: one frame in flight, one queued. -/
def flying (room : List Bool) : State :=
  { s0 with
    txPool := [freeSlot, ⟨true, frameB⟩, freeSlot, freeSlot]
    txRd := 1, txWr := 2, txInflight := true, roomAnswers := room }

/-- The end state of V-DISP-6: one frame in flight, none queued. -/
def lastFlying : State := { s0 with txRd := 2, txWr := 2, txInflight := true }

/-- P = 1, and the one slot in use. -/
def poolFull : State :=
  { State.powerOn ⟨1, 32, 2⟩ 5 with initDone := true, txPool := [⟨true, frameB⟩] }

/-- The start state of V-RX-17 to V-RX-22: `rs[5] = (10, 6, [1..6])`. -/
def partly : State :=
  { s0 with rs := s0.rs.set 5 { active := true, total := 10, acc := 6, buf := [1, 2, 3, 4, 5, 6] ++ zeros 26 } }

/-- The start state of V-DQ-3: `dq = [(7, [1,2,3,4,5]), –]`. -/
def oneMessage : State :=
  { s0 with
    dq := [{ used := true, src := 7, len := 5, bytes := [1, 2, 3, 4, 5] ++ zeros 27 }, freeEntry 32]
    dqWr := 1 }

/-- What a test reads of the next state; nothing if there is none. -/
def next? {α : Type} (read : State → α) : Outcome → Option α
  | .next t => some (read t)
  | .fault _ => none
  | .refused _ => none

/-! ## One step of the vectors -/

/-- V-INIT-4. -/
theorem test_init_power_on : exec (.init 5) (State.powerOn Config.testVectors 0xEE) = .next s0 := rfl

/-- V-INIT-3: INIT forgets the frame in flight. -/
theorem test_init_forgets : exec (.init 5) (flying []) = .next s0 := rfl

/-- V-SEND-3. -/
theorem test_send_two_frames : next? (fun t => (t.txPool, t.txWr, t.trace, t.result))
    (exec (sendSeq 0 9) { s0 with roomAnswers := [false] }) =
    some ([⟨true, { id := 0x105, dlc := 8, data := ⟨0x09, 0, 0, 1, 2, 3, 4, 5⟩ }⟩,
      ⟨true, { id := 0x205, dlc := 3, data := ⟨6, 7, 8, 0, 0, 0, 0, 0⟩ }⟩, freeSlot, freeSlot],
      2, [.roomQuery false], .status 0x00) := by decide +kernel

/-- V-SEND-10: too large, and the counter wraps. -/
theorem test_send_drop_wraps : next? (fun t => (t.txDrops, t.trace, t.result))
    (exec (sendSeq 0 33) { s0 with txDrops := 0xFFFFFFFF }) =
    some (0, [.txDropped .messageTooLarge], .status 0x01) := by decide +kernel

/-- V-DQ-3: a silent truncation. -/
theorem test_recv_truncates : next? (fun t => (t.result.bytes, t.dqRd, t.rxDrops, t.trace)) (exec (.recv 3) oneMessage) =
    some ([0x01, 0x03, 0x00, 0x07, 1, 2, 3], 1, 0, []) := by decide +kernel

/-- V-DQ-1: an empty poll. -/
theorem test_recv_empty : next? (fun t => t.result.bytes) (exec (.recv 32) s0) = some [0x00, 0x00, 0x00, 0x00] := by
  decide +kernel

/-- V-RX-16: the DLC is tested before the kind. -/
theorem test_frameReceived_dlc_first : next? (fun t => (t.rxDrops, t.trace))
    (exec (.frameReceived 0x705 9 ⟨0, 0, 0, 0, 0, 0, 0, 0⟩) s0) = some (1, [.rxDropped .malformedDlc]) := by decide +kernel

/-- V-RX-19: a continuation completes the message. -/
theorem test_frameReceived_completes : next? (fun t => (queuedMessages t, (t.rxSlot 5).active, t.trace))
    (exec (.frameReceived 0x205 4 ⟨7, 8, 9, 10, 0, 0, 0, 0⟩) partly) =
    some ([(5, [1, 2, 3, 4, 5, 6, 7, 8, 9, 10])], false, []) := by decide +kernel

/-- V-DISP-5: no room for the next frame. -/
theorem test_frameSent_no_room : next? (fun t => (txStatus t, t.trace)) (exec .frameSent (flying [false])) =
    some (.ready, [.roomQuery false]) := by decide +kernel

/-- V-DISP-7: the pool is empty, so there is no query. -/
theorem test_frameSent_idle : next? (fun t => (txStatus t, t.trace)) (exec .frameSent lastFlying) = some (.idle, []) := by
  decide +kernel

/-- V-POOL-4, with V-DISP-3's frames: the oldest frame is handed over and its slot cleared. -/
theorem test_dispatch_sends : next? (fun t => (t.txPool, t.txRd, t.txInflight, t.trace)) (exec .dispatch (ready [true])) =
    some ([freeSlot, ⟨true, frameB⟩, freeSlot, freeSlot], 1, true, [.roomQuery true, .sendFrame frameA]) := by
  decide +kernel

/-- V-DISP-4: in TX_WAIT_SENT nothing happens. -/
theorem test_dispatch_waits : exec .dispatch (flying [true]) = .next (flying [true]) := rfl

/-- V-ENC-1. -/
theorem test_reservedCmd_refused : step { s0 with inbox := [.command [0x06]] } = .refused .reservedCommand := rfl

/-- V-RX-20: a SINGLE frame discards the partial message without a count. -/
theorem test_rxSingle_discards : next? (fun t => (queuedMessages t, (t.rxSlot 5).active, t.rxDrops, t.trace))
    (exec (.rxSingle 5 2 ⟨0xEE, 0xFF, 0, 0, 0, 0, 0, 0⟩) partly) = some ([(5, [0xEE, 0xFF])], false, 0, []) := by
  decide +kernel

/-- V-RX-4: with M = 4 a SINGLE frame of 5 bytes is too long. -/
theorem test_rxSingle_oversize : next? (fun t => (t.rxDrops, t.trace))
    (exec (.rxSingle 7 5 ⟨1, 2, 3, 4, 5, 0, 0, 0⟩) { State.powerOn ⟨4, 4, 2⟩ 5 with initDone := true }) =
    some (1, [.rxDropped .oversize]) := by decide +kernel

/-- V-RX-5. -/
theorem test_rxFirst_starts : next? (fun t => (t.rxSlot 5, t.trace)) (exec (.rxFirst 5 8 ⟨20, 0, 0, 1, 2, 3, 4, 5⟩) s0) =
    some (⟨true, 20, 6, [0, 1, 2, 3, 4, 5] ++ zeros 26⟩, []) := by decide +kernel

/-- V-RX-9: T = 3, but the frame carries 6 bytes. -/
theorem test_rxFirst_overruns : next? (fun t => (t.rxSlot 5, t.rxDrops, t.trace))
    (exec (.rxFirst 5 8 ⟨3, 0, 1, 2, 3, 4, 5, 6⟩) s0) = some (idleSlot 32, 1, [.rxDropped .overrun]) := by decide +kernel

/-- V-RX-17: 6 + 8 > 10. -/
theorem test_rxCont_overruns : next? (fun t => (t.rxSlot 5, t.rxDrops, t.trace))
    (exec (.rxCont 5 8 ⟨1, 2, 3, 4, 5, 6, 7, 8⟩) partly) = some (idleSlot 32, 1, [.rxDropped .overrun]) := by decide +kernel

/-- V-RX-14: an orphan. -/
theorem test_rxCont_orphan : next? (fun t => (t.rxDrops, t.trace)) (exec (.rxCont 9 2 ⟨1, 2, 0, 0, 0, 0, 0, 0⟩) s0) =
    some (1, [.rxDropped .orphanContinuation]) := by decide +kernel

/-- V-RX-22: the slot of the frame's source is not touched. -/
theorem test_rxReservedKind_drops : next? (fun t => (t.rs, t.rxDrops, t.trace))
    (exec (.rxReservedKind 3 5 2 ⟨1, 2, 0, 0, 0, 0, 0, 0⟩) partly) = some (partly.rs, 1, [.rxDropped .reservedKind]) := by
  decide +kernel

/-- V-ENC-2, V-ENC-3, V-ENC-4. -/
theorem test_invalid_operands :
    step { s0 with inbox := [.command [0x03, 0x05, 0x08, 0x01, 0xAA, 0, 0, 0, 0, 0, 0, 0]] } = .refused .invalidOperand ∧
      step { s0 with inbox := [.command [0x03, 0x05, 0x00, 0x11, 0, 0, 0, 0, 0, 0, 0, 0]] } = .refused .invalidOperand ∧
      step { s0 with inbox := [.command [0x02, 0x20]] } = .refused .invalidOperand := ⟨rfl, rfl, rfl⟩

/-! ## Witnesses: encoding -/

theorem witness_DecodeOfEncodeIsIdentity :
    (Instr.send []).wf = true ∧ (Instr.send []).isCommand = true ∧ (Instr.send (List.replicate 65535 1)).wf = true ∧
      (Instr.reservedCmd 6).wf = true ∧ (Instr.reservedCmd 255).wf = true ∧ (Instr.reservedCmd 6).isCommand = true ∧
      (Instr.rxReservedKind 3 5 0 frameA.data).wf = true ∧ (Instr.rxReservedKind 7 5 15 frameA.data).wf = true := by
  refine ⟨rfl, rfl, ?_, rfl, rfl, rfl, rfl, rfl⟩
  rw [Instr.wf, List.length_replicate]
  rfl

theorem witness_EncodeOfDecodeIsIdentity :
    decodeCommand [4, 7] = .ok (.frameSent, [7]) ∧ decodeCommand [1, 1, 0, 9, 5] = .ok (.send [9], [5]) := ⟨rfl, rfl⟩

/-- Both sides of each limit: byte 2 at 7 and 8, byte 3 at 15 and 16, twelve bytes and eleven. -/
theorem witness_InvalidOperandsRefused : ∃ s : State,
    s.inbox = [.command [3, 5, 8, 0, 0, 0, 0, 0, 0, 0, 0, 0]] ∧ step s = .refused .invalidOperand ∧
      (decodeCommand [3, 5, 7, 15, 0, 0, 0, 0, 0, 0, 0, 0]).isOk = true ∧
      (decodeCommand [3, 5, 7, 16, 0, 0, 0, 0, 0, 0, 0, 0]).isOk = false ∧
      (decodeCommand [3, 5, 7, 15, 0, 0, 0, 0, 0, 0, 0]).isOk = false :=
  ⟨{ s0 with inbox := [.command [3, 5, 8, 0, 0, 0, 0, 0, 0, 0, 0, 0]] }, rfl, rfl, rfl, rfl, rfl⟩

theorem witness_FrameClassification :
    classify 0x005 9 = .malformedDlc ∧ classify 0x705 9 = .malformedDlc ∧ classify 0x0FF 8 = .single ∧
      classify 0x1FF 0 = .first ∧ classify 0x200 8 = .cont ∧ classify 0x300 8 = .reserved ∧
      classify 0x7FF 0 = .reserved := by decide

/-! ## Witnesses: steps, refusals, power-on -/

/-- Each clause: a whole arrival, an arrival with bytes left over, and an empty inbox. -/
theorem witness_StepRunsDecodedOperation :
    Instr.dispatch.wf = true ∧ ({ s0 with inbox := [encode .dispatch] } : State).inbox = encode .dispatch :: [] ∧
      ({ s0 with inbox := [.command [5, 4]] } : State).inbox = .command [5, 4] :: [] ∧
      decodeCommand [5, 4] = .ok (.dispatch, [4]) ∧ s0.inbox = [] := ⟨rfl, rfl, rfl, rfl, rfl⟩

/-- One state for each constructor that completes. -/
theorem witness_DutifulOperationsComplete :
    Dutiful s0 (.init 9) = true ∧ Dutiful s0 (.send []) = true ∧ Dutiful s0 (.recv 0) = true ∧
      Dutiful s0 (.frameReceived 0x7FF 15 frameA.data) = true ∧ Dutiful lastFlying .frameSent = true ∧
      Dutiful s0 .dispatch = true ∧ Dutiful s0 (.rxSingle 5 0 frameA.data) = true ∧
      Dutiful s0 (.rxFirst 5 1 frameA.data) = true ∧ Dutiful s0 (.rxCont 5 8 frameA.data) = true ∧
      Dutiful s0 (.rxReservedKind 3 5 0 frameA.data) = true := by decide +kernel

/-- Each of the three grounds. -/
theorem witness_RefusedExactlyWhen :
    step { s0 with inbox := [.command []] } = .refused .invalidOperand ∧
      step { s0 with inbox := [.command [0xFF]] } = .refused .reservedCommand ∧
      step { State.reset with inbox := [.command [5]] } = .refused .notInitialised := ⟨rfl, rfl, rfl⟩

/-- V-SEND-9, a SEND before any INIT. -/
theorem witness_RefusedBeforeInit : State.reset.initDone = false ∧ (∀ id, Instr.send [1] ≠ .init id) ∧
    ∀ code, Instr.send [1] ≠ .reservedCmd code := ⟨rfl, nofun, nofun⟩

theorem witness_ReservedCodesRefused : 6 ≤ (6 : Byte).toNat ∧ 6 ≤ (0xFF : Byte).toNat ∧
    ({ s0 with inbox := [.command [0xFF, 1]] } : State).inbox = .command (0xFF :: [1]) :: [] := by decide

/-- InvariantAtPowerOn, FlagsAfterInit, TooLargeIsOverCapacity: the least and the greatest parameters are legal. -/
theorem witness_Legal : Config.Legal ⟨1, 0, 1⟩ ∧ Config.Legal ⟨65535, 65535, 65535⟩ ∧ s0.cfg.Legal := by decide

theorem witness_UntouchedBeforeInit :
    (State.reset.initDone = false → SameBlock State.reset (State.powerOn State.reset.cfg State.reset.localId)) ∧
      step State.reset = .next State.reset ∧ State.reset.initDone = false :=
  ⟨fun _ => ⟨rfl, rfl, rfl, rfl, rfl, rfl, rfl, rfl, rfl, rfl, rfl, rfl, rfl⟩, rfl, rfl⟩

theorem witness_InitForgetsThePast : s0.cfg = lastFlying.cfg ∧ s0.cfg.Legal := by decide

/-! ## Witnesses: the transmit side -/

/-- Lengths at the limits: 8 and 9 bytes, and 15 for a frame that is not the last. -/
theorem witness_MessageLayout : (zeros 8).length ≤ 8 ∧ 8 < (zeros 9).length ∧ (1 < nframes (zeros 9).length) ∧
    1 + 1 = nframes (zeros 9).length ∧ 1 + 1 < nframes (zeros 15).length ∧ (zeros 15).length ≤ 65535 := by decide

/-- Each clause: longer than M by one byte, one frame too many, and one free slot too few. -/
theorem witness_SendRejection :
    s0.initDone = true ∧ s0.cfg.maxMsg < (zeros 33).length ∧ s0.cfg.poolFrames < nframes (zeros 31).length ∧
      poolFull.initDone = true ∧ (zeros 8).length ≤ poolFull.cfg.maxMsg ∧
      nframes (zeros 8).length ≤ poolFull.cfg.poolFrames ∧ txFree poolFull < nframes (zeros 8).length := by decide +kernel

/-- The longest message that an empty pool of four slots takes. -/
theorem witness_SendAcceptance : s0.initDone = true ∧ s0.cfg.Legal ∧ PoolRing s0 ∧ (zeros 30).length ≤ s0.cfg.maxMsg ∧
    nframes (zeros 30).length ≤ txFree s0 ∧ txFree s0 = nframes (zeros 30).length := by decide +kernel

theorem witness_DispatchResult : (ready [true]).initDone = true ∧ (ready [true]).cfg.Legal ∧ PoolRing (ready [true]) := by
  decide +kernel

theorem witness_FrameSentResult : (flying []).initDone = true ∧ (flying []).txInflight = true ∧ (flying []).cfg.Legal ∧
    PoolRing (flying []) := by decide +kernel

theorem witness_SpuriousFrameSent : s0.initDone = true ∧ s0.txInflight = false := ⟨rfl, rfl⟩

/-- Each status, with each room answer, and a SEND that fits and one that does not. -/
theorem witness_SegmenterStateMachine :
    (∀ s ∈ [s0, ready [false], ready [true], flying [false], flying [true], lastFlying],
      s.initDone = true ∧ s.cfg.Legal ∧ PoolRing s ∧ (zeros 14).length ≤ s.cfg.maxMsg ∧
        nframes (zeros 14).length ≤ txFree s ∧ s.cfg.maxMsg < (zeros 33).length) ∧
      txStatus s0 = .idle ∧ txStatus (ready [false]) = .ready ∧ roomAnswer (ready [false]) = false ∧
      roomAnswer (ready [true]) = true ∧ roomAnswer { s0 with roomAnswers := [true] } = true ∧
      roomAnswer { s0 with roomAnswers := [false] } = false ∧
      txStatus (flying [true]) = .waitSent ∧ 0 < txCount (flying [true]) ∧ roomAnswer (flying [true]) = true ∧
      roomAnswer (flying [false]) = false ∧ txStatus lastFlying = .waitSent ∧ txCount lastFlying = 0 := by
  decide +kernel

theorem witness_AtMostOneFrameInFlight : ∃ t, SafeRun [.frameSent, .frameSent, .init 6] (flying [true]) t :=
  ⟨_, .cons rfl rfl (.cons rfl rfl (.cons rfl rfl (.nil _)))⟩

theorem witness_NothingSentWhileInFlight : ∃ t, (flying []).txInflight = true ∧ Instr.dispatch ≠ .frameSent ∧
    (∀ id, Instr.dispatch ≠ .init id) ∧ exec .dispatch (flying []) = .next t := ⟨_, rfl, nofun, nofun, rfl⟩

theorem witness_FramesLeaveInAcceptanceOrder : (ready []).cfg.Legal ∧ PoolRing (ready []) ∧
    (∀ id, Instr.init id ∉ [.dispatch, .send [1], .frameSent]) ∧
    ∃ t, execAll [.dispatch, .send [1], .frameSent] (ready [true, false]) = .next t :=
  ⟨by decide, by decide +kernel, by simp, _, rfl⟩

theorem witness_QueuedFramesAreAllSent : (ready [true, true]).initDone = true ∧ (ready [true, true]).cfg.Legal ∧
    PoolRing (ready [true, true]) ∧ (ready [true, true]).txInflight = false ∧ 0 < txCount (ready [true, true]) ∧
    (ready [true, true]).roomAnswers = List.replicate (txCount (ready [true, true])) true := by decide +kernel

/-! ## Witnesses: the receive side -/

/-- The least and the greatest illegal DLC. -/
theorem witness_MalformedDlcDropped : s0.initDone = true ∧ 8 < (9 : BitVec 4).toNat ∧ 8 < (15 : BitVec 4).toNat ∧
    Instr.rxCont 5 9 frameA.data = decodeFrame ⟨0x205, 9, frameA.data⟩ := ⟨rfl, by decide, by decide, rfl⟩

/-- M = 4: a DLC of 5, and one of 4. -/
theorem witness_SingleFrameResult : ∃ s : State, s.initDone = true ∧ s.cfg.Legal ∧ DqRing s ∧ (5 : BitVec 4).toNat ≤ 8 ∧
    s.cfg.maxMsg < (5 : BitVec 4).toNat ∧ (4 : BitVec 4).toNat ≤ s.cfg.maxMsg :=
  ⟨{ State.powerOn ⟨4, 4, 2⟩ 5 with initDone := true }, by decide +kernel⟩

/-- Each clause at its limit, M = 32: a DLC of 1; a total of 33; totals of 5, 6 and 7 with 6 payload bytes. -/
theorem witness_FirstFrameResult : s0.initDone = true ∧ s0.cfg.Legal ∧ DqRing s0 ∧ (8 : BitVec 4).toNat ≤ 8 ∧
    (1 : BitVec 4).toNat < 2 ∧ 2 ≤ (2 : BitVec 4).toNat ∧ s0.cfg.maxMsg < (33 : Byte).toNat + 256 * (0 : Byte).toNat ∧
    (32 : Byte).toNat + 256 * (0 : Byte).toNat ≤ s0.cfg.maxMsg ∧
    (5 : Byte).toNat + 256 * (0 : Byte).toNat < (8 : BitVec 4).toNat - 2 ∧
    (8 : BitVec 4).toNat - 2 = (6 : Byte).toNat + 256 * (0 : Byte).toNat ∧
    (8 : BitVec 4).toNat - 2 < (7 : Byte).toNat + 256 * (0 : Byte).toNat := by decide +kernel

/-- Each clause at its limit: an idle slot, and the slot (10, 6) with DLCs of 5, 4 and 3. -/
theorem witness_ContFrameResult : partly.initDone = true ∧ partly.cfg.Legal ∧ DqRing partly ∧
    RxSlotOk partly.cfg.maxMsg (partly.rxSlot 5) ∧ RxSlotOk s0.cfg.maxMsg (s0.rxSlot 5) ∧
    (s0.rxSlot 5).active = false ∧ (partly.rxSlot 5).active = true ∧
    (partly.rxSlot 5).total.toNat < (partly.rxSlot 5).acc.toNat + (5 : BitVec 4).toNat ∧
    (partly.rxSlot 5).acc.toNat + (4 : BitVec 4).toNat = (partly.rxSlot 5).total.toNat ∧
    (partly.rxSlot 5).acc.toNat + (3 : BitVec 4).toNat < (partly.rxSlot 5).total.toNat := by decide +kernel

theorem witness_ReservedKindDropped : 3 ≤ (3 : BitVec 3).toNat ∧ 3 ≤ (7 : BitVec 3).toNat ∧ s0.initDone = true ∧
    (8 : BitVec 4).toNat ≤ 8 := by decide

theorem witness_StartFrameIgnoresPartial : (8 : BitVec 4).toNat ≤ 8 ∧ partly.rxSlot 5 ≠ idleSlot 32 := by decide +kernel

theorem witness_SourcesAreIndependent : ∃ t, sourceOf (.rxCont 5 4 frameA.data) = some 5 ∧
    exec (.rxCont 5 4 frameA.data) partly = .next t ∧ (6 : BitVec 8) ≠ 5 := ⟨_, rfl, rfl, by decide⟩

/-- Both clauses: an empty queue, and one with a message. -/
theorem witness_RecvResult : s0.initDone = true ∧ s0.cfg.Legal ∧ DqRing s0 ∧ (∀ e ∈ s0.dq, DqEntryOk s0.cfg.maxMsg e) ∧
    queuedMessages s0 = [] ∧ oneMessage.initDone = true ∧ oneMessage.cfg.Legal ∧ DqRing oneMessage ∧
    (∀ e ∈ oneMessage.dq, DqEntryOk oneMessage.cfg.maxMsg e) ∧ queuedMessages oneMessage = [(7, [1, 2, 3, 4, 5])] := by
  decide +kernel

theorem witness_RecvOnEmptyHasNoEffect : s0.initDone = true ∧ dqEmpty s0 = true := by decide +kernel

/-- The longest message, M bytes. -/
theorem witness_ReassemblyInvertsSegmentation : s0.initDone = true ∧ s0.cfg.Legal ∧ DqRing s0 ∧ s0.rs.length = 256 ∧
    (zeros 32).length ≤ s0.cfg.maxMsg := by decide +kernel

/-- The longest message that four slots take. -/
theorem witness_RoundTrip : ∃ s : State, s.initDone = true ∧ s.Inv ∧ txStatus s = .idle ∧ dqCount s = 0 ∧
    (zeros 30).length ≤ s.cfg.maxMsg ∧ nframes (zeros 30).length ≤ s.cfg.poolFrames ∧
    (zeros 30).length ≤ (30 : Half).toNat ∧ s.roomAnswers = List.replicate (nframes (zeros 30).length) true :=
  ⟨{ s0 with roomAnswers := [true, true, true, true] }, by decide +kernel⟩

/-! ## Witnesses: accounting and whole-machine rules -/

/-- A drop of each side, and INIT. -/
theorem witness_DropAccounting : (∃ t, exec (.rxCont 9 1 frameA.data) s0 = .next t) ∧
    (∃ t, exec (.send (zeros 33)) s0 = .next t) ∧ ∃ t, exec (.init 9) s0 = .next t := ⟨⟨_, rfl⟩, ⟨_, rfl⟩, ⟨_, rfl⟩⟩

theorem witness_SidesWriteTheirOwnState : (∃ t, exec .dispatch (ready [true]) = .next t) ∧
    isTransmit .dispatch = true ∧ (∃ t, exec (.recv 3) oneMessage = .next t) ∧ isReceive (.recv 3) = true :=
  ⟨⟨_, rfl⟩, rfl, ⟨_, rfl⟩, rfl⟩

theorem witness_SidesCommute : isTransmit .dispatch = true ∧ isReceive (.rxSingle 5 8 frameA.data) = true ∧
    (ready [true]).initDone = true := ⟨rfl, rfl, rfl⟩

theorem witness_DropsLeaveNoErrorMode : ∃ t, exec (.rxCont 9 1 frameA.data) s0 = .next t := ⟨_, rfl⟩

theorem witness_LocalIdentity : (∃ t, exec (.rxSingle 5 1 frameA.data) s0 = .next t) ∧
    isReceive (.rxSingle 5 1 frameA.data) = true ∧ ∃ t, exec (.init 9) s0 = .next t := ⟨⟨_, rfl⟩, rfl, ⟨_, rfl⟩⟩

theorem witness_ConfigurationIsFixed : ∃ t, step { s0 with inbox := [.command [5]] } = .next t ∧ s0.initDone = true :=
  ⟨_, rfl, rfl⟩

/-- A state with a queued frame, a frame in flight, a partial message and a queued message. -/
theorem witness_StepKeepsInvariant : ∃ s t : State, s.Inv ∧ step s = .next t :=
  ⟨{ flying [true] with rs := partly.rs, dq := oneMessage.dq, dqWr := 1, inbox := [.command [4]] }, _,
    by decide +kernel, rfl⟩

/-- Each clause and each case of it: INIT, DISPATCH, FRAME_SENT, the reception of a frame as such and by its kind; the
three statuses; RECV on an empty queue and on one with a message. -/
theorem witness_ResultBytesAndCodes : (∃ t, exec (.init 9) s0 = .next t) ∧ (∃ t, exec .dispatch s0 = .next t) ∧
    (∃ t, exec .frameSent (flying []) = .next t) ∧ (∃ t, exec (.frameReceived 0x105 8 frameA.data) s0 = .next t) ∧
    (∃ t, exec (.rxFirst 5 8 frameA.data) s0 = .next t) ∧ (∃ t, exec (.send (zeros 33)) s0 = .next t) ∧
    (∃ t, exec (.send (zeros 8)) poolFull = .next t) ∧ (∃ t, exec (.send (zeros 8)) s0 = .next t) ∧
    (∃ t, exec (.recv 3) s0 = .next t) ∧ ∃ t, exec (.recv 3) oneMessage = .next t :=
  ⟨⟨_, rfl⟩, ⟨_, rfl⟩, ⟨_, rfl⟩, ⟨_, rfl⟩, ⟨_, rfl⟩, ⟨_, rfl⟩, ⟨_, rfl⟩, ⟨_, rfl⟩, ⟨_, rfl⟩, ⟨_, rfl⟩⟩

end Sys2Proof.Tests
end

section
/-! PROOFS. The statements of 00_scope.md: the decoded operation that a step runs (O8), the invariant at power-on (O14)
and over every step (O51), and the size of a message that is too large (O20). -/

/-! ## Decoding the encoding of an operation (30_encoding.md R82, R95, R96) -/

namespace Sys2Proof

theorem decodeSend_append {b : List Byte} (rest : List Byte) (h : b.length ≤ 65535) :
    decodeSend (lowByte (BitVec.ofNat 16 b.length) :: highByte (BitVec.ofNat 16 b.length) :: (b ++ rest)) =
      .ok (.send b, rest) := by
  have hlen : (le16 (lowByte (BitVec.ofNat 16 b.length)) (highByte (BitVec.ofNat 16 b.length))).toNat = b.length := by
    rw [le16_lowByte_highByte, BitVec.toNat_ofNat]
    omega
  simp only [decodeSend, hlen, List.length_append, List.take_left, List.drop_left]
  exact if_neg (by omega)

theorem decodeRecv_append (m : Half) (rest : List Byte) :
    decodeRecv (lowByte m :: highByte m :: rest) = .ok (.recv m, rest) := by
  simp only [decodeRecv, le16_lowByte_highByte]

theorem decodeFrameReceived_append (id : BitVec 11) (dlc : BitVec 4) (data : Bytes8) (rest : List Byte) :
    decodeFrameReceived (srcOf id :: (kindOf id).setWidth 8 :: dlc.setWidth 8 :: (data.toList ++ rest)) =
      .ok (.frameReceived id dlc data, rest) := by
  have hkind := toNat_setWidth_three_lt (kindOf id)
  have hdlc := toNat_setWidth_four_lt dlc
  simp only [Bytes8.toList, List.cons_append, List.nil_append, decodeFrameReceived]
  rw [if_neg (by omega), if_neg (by omega), setWidth_eight_three, setWidth_eight_four, mkid_kindOf_srcOf]

theorem decodeCommand_reserved {code : Byte} (rest : List Byte) (h : 6 ≤ code.toNat) :
    decodeCommand (code :: rest) = .ok (.reservedCmd code, rest) := by
  simp only [decodeCommand]
  split
  case h_7 => rfl
  all_goals omega

/-- A command is decoded from the front of any longer byte sequence. -/
theorem decodeCommand_encodeCommand_append {i : Instr} (rest : List Byte) (hwf : i.wf = true)
    (hcmd : i.isCommand = true) : decodeCommand (encodeCommand i ++ rest) = .ok (i, rest) := by
  cases i with
  | init id => rfl
  | send b => exact decodeSend_append rest (by simpa [Instr.wf] using hwf)
  | recv m => exact decodeRecv_append m rest
  | frameReceived id dlc data => exact decodeFrameReceived_append id dlc data rest
  | frameSent => rfl
  | dispatch => rfl
  | reservedCmd code => exact decodeCommand_reserved rest (by simpa [Instr.wf] using hwf)
  | rxSingle | rxFirst | rxCont | rxReservedKind => cases hcmd

theorem decodeFrame_reservedKind {kind : BitVec 3} (src : BitVec 8) (dlc : BitVec 4) (data : Bytes8)
    (h : 3 ≤ kind.toNat) :
    decodeFrame { id := mkid kind src, dlc := dlc, data := data } = .rxReservedKind kind src dlc data := by
  simp only [decodeFrame, kindOf_mkid, srcOf_mkid]
  split
  case h_4 => rfl
  all_goals omega

theorem encode_of_isCommand {i : Instr} (h : i.isCommand = true) : encode i = .command (encodeCommand i) := by
  cases i with
  | rxSingle | rxFirst | rxCont | rxReservedKind => cases h
  | _ => rfl

/-- An arrival that encodes a well-formed operation decodes to it, with nothing left over. -/
theorem decode_encode {i : Instr} (hwf : i.wf = true) : decode (encode i) = .ok (i, []) := by
  by_cases hcmd : i.isCommand = true
  · rw [encode_of_isCommand hcmd]
    simpa [decode] using decodeCommand_encodeCommand_append [] hwf hcmd
  · cases i with
    | rxSingle src dlc data => simp [encode, decode, decodeFrame]
    | rxFirst src dlc data => simp [encode, decode, decodeFrame]
    | rxCont src dlc data => simp [encode, decode, decodeFrame]
    | rxReservedKind kind src dlc data =>
      rw [encode, decode, decodeFrame_reservedKind src dlc data (by simpa [Instr.wf] using hwf)]
    | _ => exact absurd rfl hcmd

theorem pendingAfter_eq_ite (left : List Byte) (rest : List Arrival) :
    pendingAfter left rest = if left = [] then rest else .command left :: rest := by
  simp [pendingAfter]

end Sys2Proof

namespace Sys2Proof.Machine

theorem step_of_inbox_nil {s : State} (h : s.inbox = []) : step s = .next s := by
  simp only [step, h]

/-- Settles O8: the decoder inverts the encoder, and a step is `exec` of what the head arrival decodes to. -/
theorem stepRunsDecodedOperation : Obligations.StepRunsDecodedOperation := by
  refine ⟨fun s i rest hwf hs => ?_, fun s bytes left i rest hs hd => ?_, fun s hs => step_of_inbox_nil hs⟩
  · exact step_of_decode hs (decode_encode hwf)
  · rw [← pendingAfter_eq_ite]
    exact step_of_decode hs hd

/-! ## Too large (R9, R131) -/

theorem capacity_of_two_le {poolFrames : Nat} (h : 2 ≤ poolFrames) : capacity poolFrames = 8 * poolFrames - 2 := by
  rw [capacity, if_neg (by omega)]
  omega

/-- `Lcap(P)` is the longest message whose frames fit P slots. -/
theorem lt_nframes_iff {poolFrames : Nat} (len : Nat) (h : 1 ≤ poolFrames) :
    poolFrames < nframes len ↔ capacity poolFrames < len := by
  by_cases hlen : len ≤ 8
  · rw [nframes_of_le hlen, capacity]
    split <;> omega
  · obtain ⟨htwo, hreach, hlast⟩ := nframes_of_gt (Nat.lt_of_not_le hlen)
    rw [capacity]
    split <;> omega

/-- Settles O20: a message needs more than P frames exactly when it is longer than `Lcap(P)`. -/
theorem tooLargeIsOverCapacity : Obligations.TooLargeIsOverCapacity := by
  rintro c len ⟨hpool, -⟩
  refine ⟨?_, fun h => if_pos h, capacity_of_two_le⟩
  simp only [tooLarge, Bool.or_eq_true, decide_eq_true_eq, lt_nframes_iff len hpool]
  exact min_lt_iff.symm

/-! ## The invariant of a cleared block (R210, R260) -/

theorem idleSlot_ok (maxMsg : Nat) : RxSlotOk maxMsg (idleSlot maxMsg) := ⟨length_zeros _, rfl⟩

theorem freeEntry_ok (maxMsg : Nat) : DqEntryOk maxMsg (freeEntry maxMsg) := ⟨length_zeros _, rfl⟩

/-- A block of a legal configuration whose rings and slots are as INIT and power-on leave them. -/
theorem State.Inv.of_cleared {s : State} (hcfg : s.cfg.Legal)
    (hpool : s.txPool = List.replicate s.cfg.poolFrames freeSlot) (htxRd : s.txRd = 0) (htxWr : s.txWr = 0)
    (hrs : s.rs = List.replicate numSources (idleSlot s.cfg.maxMsg))
    (hdq : s.dq = List.replicate s.cfg.dqDepth (freeEntry s.cfg.maxMsg)) (hdqRd : s.dqRd = 0) (hdqWr : s.dqWr = 0) :
    s.Inv := by
  obtain ⟨hP, -, -, hD, -⟩ := id hcfg
  refine ⟨hcfg, ?_, ?_, ?_, ?_, ?_, ?_⟩
  · rw [PoolRing, hpool, htxRd, htxWr]
    exact Ring.replicate rfl hP
  · rw [DqRing, hdq, hdqRd, hdqWr]
    exact Ring.replicate rfl hD
  · rw [hrs, List.length_replicate, numSources]
  · rw [hpool]
    intro p hp
    rw [List.eq_of_mem_replicate hp]
    rfl
  · rw [hrs]
    intro r hr
    rw [List.eq_of_mem_replicate hr]
    exact idleSlot_ok _
  · rw [hdq]
    intro e he
    rw [List.eq_of_mem_replicate he]
    exact freeEntry_ok _

theorem powerOn_inv {c : Config} (id : BitVec 8) (h : c.Legal) : (State.powerOn c id).Inv :=
  .of_cleared h rfl rfl rfl rfl rfl rfl rfl

/-- Settles O14: power-on leaves everything cleared, and reset is power-on of a legal configuration. -/
theorem invariantAtPowerOn : Obligations.InvariantAtPowerOn :=
  ⟨fun _ id h => powerOn_inv id h, powerOn_inv 0 (by decide)⟩

/-! ## Each side keeps the invariant of the other (R72) -/

section
variable {s t : State}

/-- A change of the transmit side alone keeps the invariant if the pool is kept. -/
theorem State.Inv.of_transmit (h : s.Inv) (hcfg : t.cfg = s.cfg) (hrs : t.rs = s.rs) (hdq : t.dq = s.dq)
    (hdqRd : t.dqRd = s.dqRd) (hdqWr : t.dqWr = s.dqWr) (hring : PoolRing t)
    (hslots : ∀ p ∈ t.txPool, PoolSlotOk t.localId p) : t.Inv := by
  obtain ⟨hc, -, hdqRing, hlen, -, hrxSlots, hentries⟩ := h
  refine ⟨hcfg ▸ hc, hring, DqRing_congr hdq hdqRd hdqWr hcfg hdqRing, hrs ▸ hlen, hslots, ?_, ?_⟩
  · rwa [hrs, hcfg]
  · rwa [hdq, hcfg]

/-- A change of the receive side alone keeps the invariant if the slots and the queue are kept. -/
theorem State.Inv.of_receive (h : s.Inv) (hcfg : t.cfg = s.cfg) (hid : t.localId = s.localId)
    (hpool : t.txPool = s.txPool) (htxRd : t.txRd = s.txRd) (htxWr : t.txWr = s.txWr) (hring : DqRing t)
    (hlen : t.rs.length = 256) (hrxSlots : ∀ r ∈ t.rs, RxSlotOk t.cfg.maxMsg r)
    (hentries : ∀ e ∈ t.dq, DqEntryOk t.cfg.maxMsg e) : t.Inv := by
  obtain ⟨hc, hpoolRing, -, -, hslots, -, -⟩ := h
  refine ⟨hcfg ▸ hc, PoolRing_congr hpool htxRd htxWr hcfg hpoolRing, hring, hlen, ?_, hrxSlots, hentries⟩
  rwa [hpool, hid]

end

/-! ## The transmit side -/

/-- The frames of a message are well built, of the node's source and of kind SINGLE, FIRST or CONT (R87, R132). -/
theorem segment_frames_ok {b : List Byte} {l : BitVec 8} {f : Frame} (hf : f ∈ segment b l) :
    FrameBuilt f ∧ srcOf f.id = l ∧ (kindOf f.id).toNat ≤ 2 := by
  rcases mem_segment hf with ⟨hle, rfl⟩ | ⟨hgt, rfl | ⟨k, hk, hkn, rfl⟩⟩
  · refine ⟨frameBuilt_of_data ?_ (singleFrame_dlc l hle).symm ?_, srcOf_mkid .., ?_⟩
    · rwa [singleFrame_dlc l hle]
    · rw [singleFrame_dlc l hle, singleFrame_data l hle]
    · rw [singleFrame, kindOf_mkid]
      decide
  · refine ⟨frameBuilt_of_data (v := (firstFrame b l).data.toList) ?_ rfl ?_, srcOf_mkid .., ?_⟩
    · rw [firstFrame_dlc]
    · rw [firstFrame_dlc, Nat.sub_self, zeros, List.replicate_zero, List.append_nil]
    · rw [firstFrame, kindOf_mkid]
      decide
  · have hlen := contFrame_len hgt hk hkn
    have hdlc := contFrame_dlc l hgt hk hkn
    refine ⟨frameBuilt_of_data ?_ ?_ (contFrame_data l hgt hk hkn), srcOf_mkid .., ?_⟩
    · omega
    · rw [length_slice]
      omega
    · rw [contFrame, kindOf_mkid]
      decide

/-- `can_acquire` says that the frames fit (R115). -/
theorem txCount_add_le_of_canAcquire {s : State} {n : Nat} (hn : 0 < n) (h : canAcquire n s = true) :
    txCount s + n ≤ s.cfg.poolFrames := by
  rw [canAcquire, decide_eq_true_eq, txFree_eq] at h
  omega

theorem storeFrames_segment_inv {s : State} {b : List Byte} (h : s.Inv)
    (hroom : canAcquire (nframes b.length) s = true) : (storeFrames s (segment b s.localId)).Inv := by
  obtain ⟨⟨-, hP, -⟩, hring, -, -, hslots, -, -⟩ := id h
  have hfit : txCount s + (segment b s.localId).length ≤ s.cfg.poolFrames := by
    rw [length_segment]
    exact txCount_add_le_of_canAcquire (nframes_pos _) hroom
  refine h.of_transmit (storeFrames_cfg ..) (storeFrames_rs ..) (storeFrames_dq ..) (storeFrames_dqRd ..)
    (storeFrames_dqWr ..) (storeFrames_spec _ hring hP hfit).1 ?_
  rw [storeFrames_localId]
  exact storeFrames_slots_ok _ s _ hslots fun f hf => segment_frames_ok hf

theorem tryDispatch_inv {s : State} (h : s.Inv) : (tryDispatch s).Inv := by
  obtain ⟨⟨-, hP, -⟩, hring, -, -, hslots, -, -⟩ := id h
  refine h.of_transmit (tryDispatch_cfg s) (tryDispatch_rs s) (tryDispatch_dq s) (tryDispatch_dqRd s)
    (tryDispatch_dqWr s) (tryDispatch_spec hring hP).1 ?_
  rw [tryDispatch_localId]
  exact tryDispatch_slots_ok s _ hslots

theorem exec_transmit_inv {i : Instr} {s t : State} (h : s.Inv) (hi : isTransmit i = true)
    (ht : exec i s = .next t) : t.Inv := by
  rcases isTransmit_cases hi with ⟨b, rfl⟩ | rfl | rfl
  · obtain ⟨-, ⟨-, rfl⟩ | ⟨-, -, rfl⟩ | ⟨-, hroom, rfl⟩⟩ := execSend_cases ht
    · exact h
    · exact h
    · exact tryDispatch_inv (storeFrames_segment_inv h hroom)
  · obtain ⟨-, ⟨-, rfl⟩ | ⟨-, rfl⟩⟩ := execFrameSent_cases ht
    · exact tryDispatch_inv (s := { s with txInflight := false }) h
    · exact h
  · obtain ⟨-, rfl⟩ := execDispatch_cases ht
    exact tryDispatch_inv h

/-! ## The receive side -/

/-- The entry of a message that fits M is legal (R34, R190). -/
theorem messageEntry_ok {maxMsg : Nat} (src : BitVec 8) {m : List Byte} (hM : maxMsg ≤ 65535)
    (hm : m.length ≤ maxMsg) : DqEntryOk maxMsg (messageEntry maxMsg src m) := by
  have hlen : (messageEntry maxMsg src m).len.toNat = m.length := by
    rw [messageEntry, BitVec.toNat_ofNat]
    omega
  refine ⟨?_, ?_⟩
  · rw [messageEntry, List.length_append, length_zeros]
    omega
  · have hused : (messageEntry maxMsg src m).used = true := rfl
    rw [if_pos hused, hlen]
    exact ⟨hm, List.drop_left⟩

theorem setRxSlot_inv {s : State} (h : s.Inv) (src : BitVec 8) {r : RxSlot} (hr : RxSlotOk s.cfg.maxMsg r) :
    (s.setRxSlot src r).Inv := by
  obtain ⟨-, -, hring, hlen, -, hrxSlots, hentries⟩ := id h
  refine h.of_receive rfl rfl rfl rfl rfl hring (List.length_set.trans hlen) (fun r' hr' => ?_) hentries
  rcases mem_set_cases hr' with rfl | hr'
  · exact hr
  · exact hrxSlots r' hr'

theorem idleRxSlot_inv {s : State} (h : s.Inv) (src : BitVec 8) : (s.idleRxSlot src).Inv :=
  setRxSlot_inv h src (idleSlot_ok _)

/-- `dq_push` writes no entry, or the message's. -/
theorem mem_dqPush_dq {src : BitVec 8} {m : List Byte} {s : State} {e : DqEntry} (he : e ∈ (dqPush src m s).dq) :
    e = messageEntry s.cfg.maxMsg src m ∨ e ∈ s.dq := by
  unfold dqPush at he
  split at he
  · exact .inr he
  · exact mem_set_cases he

theorem dqPush_inv {s : State} (h : s.Inv) (src : BitVec 8) {m : List Byte} (hm : m.length ≤ s.cfg.maxMsg) :
    (dqPush src m s).Inv := by
  obtain ⟨⟨-, -, hM, -, hD⟩, -, hring, hlen, -, hrxSlots, hentries⟩ := id h
  refine h.of_receive (dqPush_cfg ..) (dqPush_localId ..) (dqPush_txPool ..) (dqPush_txRd ..) (dqPush_txWr ..)
    (dqPush_spec hring hD src m (by omega)).1 ?_ ?_ fun e he => ?_
  · rw [dqPush_rs, hlen]
  · rwa [dqPush_rs, dqPush_cfg]
  · rw [dqPush_cfg]
    rcases mem_dqPush_dq he with rfl | he
    · exact messageEntry_ok src hM hm
    · exact hentries e he

theorem dqPop_inv {s : State} (h : s.Inv) (hne : dqEmpty s = false) : (dqPop s).2.Inv := by
  obtain ⟨⟨-, -, -, -, hD⟩, -, hring, hlen, -, hrxSlots, hentries⟩ := id h
  have hpos : 0 < dqCount s := by
    have := mt (dqEmpty_iff hring).2 (by simp [hne])
    omega
  refine h.of_receive rfl rfl rfl rfl rfl (dqPop_spec hring hD hpos).1 hlen hrxSlots fun e he => ?_
  rcases mem_set_cases he with rfl | he
  · exact freeEntry_ok _
  · exact hentries e he

theorem Received.inv {src : BitVec 8} {s u : State} (h : s.Inv) (hu : Received src s u) : u.Inv := by
  obtain ⟨⟨-, -, hM, -⟩, -, -, hlen, -, hrxSlots, -⟩ := id h
  have hslot : RxSlotOk s.cfg.maxMsg (s.rxSlot src) := hrxSlots _ (rxSlot_mem s src hlen)
  cases hu with
  | drop c => exact h
  | idleDrop c => exact idleRxSlot_inv h src
  | deliver m fits => exact dqPush_inv (idleRxSlot_inv h src) src (fits hslot)
  | store r legal => exact setRxSlot_inv h src (legal hM hslot)

theorem exec_receive_inv {i : Instr} {s t : State} (h : s.Inv) (hi : isReceive i = true)
    (ht : exec i s = .next t) : t.Inv := by
  rcases isReceive_cases hi with ⟨m, rfl⟩ | ⟨src, hsrc⟩
  · obtain ⟨-, ⟨-, rfl⟩ | ⟨hne, rfl⟩⟩ := execRecv_cases ht
    · exact h
    · exact dqPop_inv h hne
  · obtain ⟨-, u, hu, rfl⟩ := received_of_exec hsrc ht
    exact (hu.inv h : u.Inv)

/-! ## Every operation, every step -/

theorem execInit_inv {id : BitVec 8} {s t : State} (h : s.cfg.Legal) (ht : exec (.init id) s = .next t) : t.Inv := by
  obtain rfl := finish_eq_next.1 ht
  exact .of_cleared h rfl rfl rfl rfl rfl rfl rfl

theorem exec_inv {i : Instr} {s t : State} (h : s.Inv) (ht : exec i s = .next t) : t.Inv := by
  rcases instr_cases i with ⟨id, rfl⟩ | ⟨code, rfl⟩ | hi | hi
  · exact execInit_inv h.1 ht
  · exact absurd ht (exec_reservedCmd_ne_next code s t)
  · exact exec_transmit_inv h hi ht
  · exact exec_receive_inv h hi ht

/-- Settles O51: each operation keeps the invariant, on its own side by what it writes there and on the other side by
writing nothing; taking an arrival from the inbox touches none of it. -/
theorem stepKeepsInvariant : Obligations.StepKeepsInvariant := by
  intro s t h ht
  rcases step_eq_next ht with ⟨-, rfl⟩ | ⟨a, rest, i, left, -, -, ht⟩
  · exact h
  · exact exec_inv (s := { s with inbox := pendingAfter left rest }) h ht

end Sys2Proof.Machine
end

section
/-! PROOFS. The statements of 10_state.md: the flags after INIT (O18), the in-flight bit along a run (O30) and while a
frame is in flight (O31), and the local identity (O49). -/

namespace Sys2Proof.Machine

/-! ## The flags after INIT (R39) -/

theorem poolSlot_of_cleared {s : State} {n : Nat} (h : s.txPool = List.replicate n freeSlot) (i : Nat) :
    s.poolSlot i = freeSlot := by
  rw [State.poolSlot, h, List.getD_eq_getElem?_getD, List.getElem?_getD_replicate_default_eq]

theorem rxSlot_of_cleared {s : State} {n : Nat} (h : s.rs = List.replicate n (idleSlot s.cfg.maxMsg))
    (src : BitVec 8) : s.rxSlot src = idleSlot s.cfg.maxMsg := by
  rw [State.rxSlot, h, List.getD_eq_getElem?_getD, List.getElem?_getD_replicate_default_eq]

theorem dqEntry_of_cleared {s : State} {n : Nat} (h : s.dq = List.replicate n (freeEntry s.cfg.maxMsg)) (j : Nat) :
    s.dqEntry j = freeEntry s.cfg.maxMsg := by
  rw [State.dqEntry, h, List.getD_eq_getElem?_getD, List.getElem?_getD_replicate_default_eq]

theorem txCount_of_cleared {s : State} {n : Nat} (h : s.txPool = List.replicate n freeSlot) : txCount s = 0 := by
  rw [txCount, h, List.countP_replicate]
  rfl

/-- Settles O18: INIT fills the three arrays with unused elements, and the flags are read off them. -/
theorem flagsAfterInit : Obligations.FlagsAfterInit := by
  intro id s _
  obtain ⟨t, ht⟩ : ∃ t, exec (.init id) s = .next t := ⟨_, rfl⟩
  have hinit := finish_eq_next.1 ht
  have hpool : t.txPool = List.replicate s.cfg.poolFrames freeSlot := by rw [hinit]
  have hslot := poolSlot_of_cleared hpool
  have hrx := rxSlot_of_cleared (s := t) (n := numSources) (by rw [hinit])
  have hentry := dqEntry_of_cleared (s := t) (n := s.cfg.dqDepth) (by rw [hinit])
  have hflight : t.txInflight = false := by rw [hinit]
  refine ⟨t, ht, fun i => ?_, hflight, fun src => ?_, fun j => ?_, ?_, ?_, ?_, ?_, ?_⟩
  · rw [hslot]; rfl
  · rw [hrx]; rfl
  · rw [hentry]; rfl
  · rw [txEmpty, hslot]; rfl
  · rw [dqEmpty, hentry]; rfl
  · rw [txFull, hslot]; rfl
  · rw [dqFull, hentry]; rfl
  · simp [txStatus, hflight, txCount_of_cleared hpool]

/-! ## The in-flight bit (R30, R140, R142) -/

/-- Settles O31: with a frame in flight `try_dispatch` does nothing, so that SEND and DISPATCH leave the driver alone;
a receive operation never turns to it. -/
theorem nothingSentWhileInFlight : Obligations.NothingSentWhileInFlight := by
  intro i s t hflight hsent hinit h
  rcases instr_cases i with ⟨id, rfl⟩ | ⟨code, rfl⟩ | hi | hi
  · exact absurd rfl (hinit id)
  · exact absurd h (exec_reservedCmd_ne_next code s t)
  · rcases isTransmit_cases hi with ⟨b, rfl⟩ | rfl | rfl
    · obtain ⟨-, ⟨-, rfl⟩ | ⟨-, -, rfl⟩ | ⟨-, -, rfl⟩⟩ := execSend_cases h
      · exact ⟨hflight, rfl, rfl, rfl, [.txDropped .messageTooLarge], rfl, by simp, by simp⟩
      · exact ⟨hflight, rfl, rfl, rfl, [.txDropped .poolExhausted], rfl, by simp, by simp⟩
      · rw [tryDispatch_of_inflight (by simpa using hflight)]
        exact ⟨by simpa using hflight, by simp, by simp, by simp, [], by simp, by simp, by simp⟩
    · exact absurd rfl hsent
    · obtain ⟨-, rfl⟩ := execDispatch_cases h
      rw [tryDispatch_of_inflight hflight]
      exact ⟨hflight, rfl, rfl, rfl, [], by simp, by simp, by simp⟩
  · obtain ⟨htrace, hfl, -, hrd, -, -, hans, hdraws, -⟩ := receive_frame hi h
    refine ⟨hfl.trans hflight, hrd, hans, hdraws, ?_⟩
    rcases htrace with htrace | ⟨c, htrace⟩
    · exact ⟨[], by simpa using htrace, by simp, by simp⟩
    · exact ⟨[.rxDropped c], htrace, by simp, by simp⟩

/-- From `s` to `t` the in-flight bit and the `sent` frames reported sent balance the frames handed over. -/
def InflightBalance (sent : Nat) (s t : State) : Prop :=
  ∃ es, t.trace = s.trace ++ es ∧ t.txInflight.toNat + sent = s.txInflight.toNat + es.countP Event.isSendFrame

theorem InflightBalance.of_quiet {s t : State} {es : List Event} (htrace : t.trace = s.trace ++ es)
    (hes : es.countP Event.isSendFrame = 0) (hflight : t.txInflight = s.txInflight) : InflightBalance 0 s t :=
  ⟨es, htrace, by rw [hflight, hes]⟩

theorem InflightBalance.trans {m n : Nat} {s t u : State} (hst : InflightBalance m s t)
    (htu : InflightBalance n t u) : InflightBalance (m + n) s u := by
  obtain ⟨es, htr, hbal⟩ := hst
  obtain ⟨es', htr', hbal'⟩ := htu
  refine ⟨es ++ es', by rw [htr', htr, List.append_assoc], ?_⟩
  rw [List.countP_append]
  omega

/-- `try_dispatch` sets the in-flight bit exactly when it hands over a frame. -/
theorem tryDispatch_balance (s : State) : InflightBalance 0 s (tryDispatch s) := by
  obtain ⟨es, htrace, ⟨rfl, hflight⟩ | ⟨hidle, rfl, hflight⟩ | ⟨hidle, f, rfl, hflight⟩⟩ := tryDispatch_events s
  · exact .of_quiet htrace rfl hflight
  · exact .of_quiet htrace rfl (hflight.trans hidle.symm)
  · exact ⟨_, htrace, by rw [hflight, hidle]; rfl⟩

theorem execSend_balance {b : List Byte} {s t : State} (h : exec (.send b) s = .next t) : InflightBalance 0 s t := by
  obtain ⟨-, ⟨-, rfl⟩ | ⟨-, -, rfl⟩ | ⟨-, -, rfl⟩⟩ := execSend_cases h
  · exact .of_quiet (es := [.txDropped .messageTooLarge]) rfl rfl rfl
  · exact .of_quiet (es := [.txDropped .poolExhausted]) rfl rfl rfl
  · have hstore : InflightBalance 0 s (storeFrames s (segment b s.localId)) :=
      .of_quiet (es := []) (by simp) rfl (by simp)
    exact hstore.trans (tryDispatch_balance _)

/-- A FRAME_SENT that answers a SendFrame clears the bit before the dispatch step (R142). -/
theorem execFrameSent_balance {s t : State} (hflight : s.txInflight = true) (h : exec .frameSent s = .next t) :
    InflightBalance 1 s t := by
  obtain ⟨-, ⟨-, rfl⟩ | ⟨hidle, -⟩⟩ := execFrameSent_cases h
  · have hclear : InflightBalance 1 s { s with txInflight := false } := ⟨[], by simp, by rw [hflight]; rfl⟩
    exact hclear.trans (tryDispatch_balance _)
  · simp [hflight] at hidle

theorem exec_receive_balance {i : Instr} {s t : State} (hi : isReceive i = true) (h : exec i s = .next t) :
    InflightBalance 0 s t := by
  obtain ⟨htrace, hflight, -⟩ := receive_frame hi h
  rcases htrace with htrace | ⟨c, htrace⟩
  · exact .of_quiet (es := []) (by simpa using htrace) rfl hflight
  · exact .of_quiet htrace rfl hflight

/-- An operation that keeps the duties keeps the balance, each FRAME_SENT counting one. -/
theorem exec_balance {i : Instr} {s t : State} (duty : Dutiful s i = true) (h : exec i s = .next t) :
    InflightBalance ([i].countP (· == .frameSent)) s t := by
  rcases instr_cases i with ⟨id, rfl⟩ | ⟨code, rfl⟩ | hi | hi
  · have hidle : s.txInflight = false := by simpa [Dutiful] using duty
    obtain rfl := finish_eq_next.1 h
    exact .of_quiet (es := []) (by simp) rfl hidle.symm
  · exact absurd h (exec_reservedCmd_ne_next code s t)
  · rcases isTransmit_cases hi with ⟨b, rfl⟩ | rfl | rfl
    · exact execSend_balance h
    · have hflight : s.txInflight = true := (Bool.and_eq_true_iff.1 duty).2
      exact execFrameSent_balance hflight h
    · obtain ⟨-, rfl⟩ := execDispatch_cases h
      exact tryDispatch_balance s
  · have hne : i ≠ .frameSent := by rintro rfl; cases hi
    have hcount : [i].countP (· == .frameSent) = 0 := by simpa using hne
    rw [hcount]
    exact exec_receive_balance hi h

/-- Settles O30: the balance holds of the empty run, and each dutiful operation keeps it. -/
theorem atMostOneFrameInFlight : Obligations.AtMostOneFrameInFlight := by
  intro is s t hrun
  suffices h : InflightBalance (is.countP (· == .frameSent)) s t from h
  induction hrun with
  | nil s => exact .of_quiet (es := []) (by simp) rfl rfl
  | @cons i is s t u duty run _ ih =>
    rw [← List.singleton_append, List.countP_append]
    exact (exec_balance duty run).trans ih

/-! ## The local identity (R26, R174) -/

theorem exec_transmit_localId {i : Instr} {s t : State} (hi : isTransmit i = true) (h : exec i s = .next t) :
    t.localId = s.localId := by
  rcases isTransmit_cases hi with ⟨b, rfl⟩ | rfl | rfl
  · obtain ⟨-, ⟨-, rfl⟩ | ⟨-, -, rfl⟩ | ⟨-, -, rfl⟩⟩ := execSend_cases h <;> simp
  · obtain ⟨-, ⟨-, rfl⟩ | ⟨-, rfl⟩⟩ := execFrameSent_cases h <;> simp
  · obtain ⟨-, rfl⟩ := execDispatch_cases h
    simp

/-- A receive operation leaves the transmit side and the local identity as they were (R72): it gives back whatever
stands there, and so what stood there. -/
theorem receive_eq_withTransmitSide {i : Instr} {s t : State} (hi : isReceive i = true) (h : exec i s = .next t) :
    t = withTransmitSide t s s.localId t.rxDrops t.trace t.result := by
  obtain ⟨es, d, hdrops, htrace, hrun⟩ := exec_withTransmitSide hi h
  have hself := hrun s s.localId s.rxDrops s.trace s.result
  rw [← hdrops, ← htrace] at hself
  exact Host.Outcome.next.inj (h.symm.trans hself)

theorem exec_receive_localId {i : Instr} {s t : State} (hi : isReceive i = true) (h : exec i s = .next t) :
    t.localId = s.localId := by
  have ht := congrArg State.localId (receive_eq_withTransmitSide hi h)
  exact ht

/-- A receive operation does the same under any local identity: there is no source filtering (R174). -/
theorem exec_receive_with_localId {i : Instr} {s t : State} (hi : isReceive i = true) (h : exec i s = .next t)
    (x : BitVec 8) : exec i { s with localId := x } = .next { t with localId := x } := by
  obtain ⟨es, d, hdrops, htrace, hrun⟩ := exec_withTransmitSide hi h
  have hx := hrun s x s.rxDrops s.trace s.result
  rw [← hdrops, ← htrace] at hx
  have ht := congrArg (fun u : State => { u with localId := x }) (receive_eq_withTransmitSide hi h)
  exact hx.trans (congrArg Host.Outcome.next ht.symm)

/-- Settles O49: transmit operations read `local_id` and never write it, receive operations do neither. -/
theorem localIdentity : Obligations.LocalIdentity := by
  intro i s t h
  refine ⟨fun hinit => ?_, fun id hi => ?_, fun hi x => exec_receive_with_localId hi h x⟩
  · rcases instr_cases i with ⟨id, rfl⟩ | ⟨code, rfl⟩ | hi | hi
    · exact absurd rfl (hinit id)
    · exact absurd h (exec_reservedCmd_ne_next code s t)
    · exact exec_transmit_localId hi h
    · exact exec_receive_localId hi h
  · subst hi
    rw [finish_eq_next.1 h]

end Sys2Proof.Machine
end

section
/-! PROOFS. The statements of 20_memory.md: the order in which frames leave (O32), the bytes of a message over its
frames (O23), what each side writes (O46), the fixed configuration (O50), that the sides commute (O47), and the two
round trips: of reassembly (O43), and of SEND, loopback and RECV (O44). -/

namespace Sys2Proof.Machine

/-! ## Runs -/

/-- A run that completes is its first operation and then the rest. -/
theorem execAll_cons_eq_next {i : Instr} {is : List Instr} {s u : State} (h : execAll (i :: is) s = .next u) :
    ∃ t, exec i s = .next t ∧ execAll is t = .next u := by
  rw [execAll] at h
  split at h
  · exact ⟨_, ‹_›, h⟩
  · cases h
  · cases h

theorem execAll_cons_of_next {i : Instr} {is : List Instr} {s t : State} (h : exec i s = .next t) :
    execAll (i :: is) s = execAll is t := by
  rw [execAll, h]

/-! ## The order of frames (R67, R114, R146) -/

/-- From `s` to `t` the frames handed over, and those still queued after them, are the frames queued at `s` with the
frames `new` behind them; the pool is a ring of the same configuration in `t`. -/
def FramesConserved (new : List Frame) (s t : State) : Prop :=
  PoolRing t ∧ t.cfg = s.cfg ∧ ∃ es, t.trace = s.trace ++ es ∧
    es.filterMap Event.handedOver ++ queuedFrames t = queuedFrames s ++ new

/-- Nothing is handed over or queued when the pool stays as it is and no event is a SendFrame. -/
theorem FramesConserved.of_quiet {s t : State} {es : List Event} (h : PoolRing s) (hpool : t.txPool = s.txPool)
    (hrd : t.txRd = s.txRd) (hwr : t.txWr = s.txWr) (hcfg : t.cfg = s.cfg) (htrace : t.trace = s.trace ++ es)
    (hes : es.filterMap Event.handedOver = []) : FramesConserved [] s t :=
  ⟨PoolRing_congr hpool hrd hwr hcfg h, hcfg, es, htrace,
    by rw [hes, queuedFrames_congr hpool hrd hcfg, List.nil_append, List.append_nil]⟩

theorem FramesConserved.trans {new new' : List Frame} {s t u : State} (hst : FramesConserved new s t)
    (htu : FramesConserved new' t u) : FramesConserved (new ++ new') s u := by
  obtain ⟨-, hcfg, es, htr, hq⟩ := hst
  obtain ⟨hring, hcfg', es', htr', hq'⟩ := htu
  refine ⟨hring, hcfg'.trans hcfg, es ++ es', by rw [htr', htr, List.append_assoc], ?_⟩
  calc (es ++ es').filterMap Event.handedOver ++ queuedFrames u
      = es.filterMap Event.handedOver ++ (es'.filterMap Event.handedOver ++ queuedFrames u) := by
        rw [List.filterMap_append, List.append_assoc]
    _ = (es.filterMap Event.handedOver ++ queuedFrames t) ++ new' := by rw [hq', List.append_assoc]
    _ = queuedFrames s ++ (new ++ new') := by rw [hq, List.append_assoc]

/-- A dispatch step hands over the oldest frame or none (R140). -/
theorem DispatchStep.handedOver {q : List Frame} {s t : State} (h : DispatchStep q s t) :
    ∃ es, t.trace = s.trace ++ es ∧ es.filterMap Event.handedOver ++ queuedFrames t = q := by
  unfold DispatchStep at h
  split at h
  · obtain ⟨hq, -, htr, -, -⟩ := h
    exact ⟨[], by rw [htr, List.append_nil], hq⟩
  · split at h
    · obtain ⟨-, -, f, hq, htr⟩ := h
      exact ⟨_, htr, hq.symm⟩
    · obtain ⟨-, -, hq, htr⟩ := h
      exact ⟨_, htr, hq⟩

theorem tryDispatch_conserves {s : State} (h : PoolRing s) (hc : s.cfg.Legal) : FramesConserved [] s (tryDispatch s) := by
  obtain ⟨-, hP, -⟩ := hc
  obtain ⟨hring, hstep⟩ := tryDispatch_spec h hP
  obtain ⟨es, htr, hq⟩ := hstep.handedOver
  exact ⟨hring, tryDispatch_cfg s, es, htr, by rw [hq, List.append_nil]⟩

theorem storeFrames_conserves {s : State} {fs : List Frame} (h : PoolRing s) (hc : s.cfg.Legal)
    (hroom : canAcquire fs.length s = true) (hpos : 0 < fs.length) : FramesConserved fs s (storeFrames s fs) := by
  obtain ⟨-, hP, -⟩ := hc
  obtain ⟨hring, hq⟩ := storeFrames_spec fs h hP (txCount_add_le_of_canAcquire hpos hroom)
  exact ⟨hring, storeFrames_cfg s fs, [], by rw [storeFrames_trace, List.append_nil], hq⟩

/-- The frames a run accepts are those of its first operation and those of the rest. -/
theorem acceptedFrames_cons {i : Instr} {is : List Instr} {s t : State} (h : exec i s = .next t) :
    acceptedFrames (i :: is) s = acceptedFrames [i] s ++ acceptedFrames is t := by
  rw [acceptedFrames, acceptedFrames, h]
  simp [acceptedFrames]

/-- A SEND queues the frames of its message if its status is 0x00, and none otherwise. -/
theorem acceptedFrames_send {b : List Byte} {s t : State} {c : Byte} (h : exec (.send b) s = .next t)
    (hc : t.result = .status c) :
    acceptedFrames [.send b] s = if c = statusAccepted then segment b s.localId else [] := by
  simp [acceptedFrames, h, hc]

/-- Only a SEND adds frames. -/
theorem acceptedFrames_of_ne_send {i : Instr} {s : State} (hi : ∀ b, i ≠ .send b) : acceptedFrames [i] s = [] := by
  rw [acceptedFrames]
  split
  · cases i with
    | send b => exact absurd rfl (hi b)
    | _ => rfl
  · rfl
  · rfl

theorem execSend_conserves {b : List Byte} {s t : State} (hring : PoolRing s) (hc : s.cfg.Legal)
    (h : exec (.send b) s = .next t) : FramesConserved (acceptedFrames [.send b] s) s t := by
  obtain ⟨-, ⟨-, rfl⟩ | ⟨-, -, rfl⟩ | ⟨-, hroom, rfl⟩⟩ := execSend_cases h
  · rw [acceptedFrames_send h rfl]
    exact .of_quiet (es := [.txDropped .messageTooLarge]) hring rfl rfl rfl rfl rfl rfl
  · rw [acceptedFrames_send h rfl]
    exact .of_quiet (es := [.txDropped .poolExhausted]) hring rfl rfl rfl rfl rfl rfl
  · rw [acceptedFrames_send h rfl, if_pos (show (0x00 : Byte) = statusAccepted from rfl)]
    have hlen := length_segment b s.localId
    have hstore : FramesConserved (segment b s.localId) s (storeFrames s (segment b s.localId)) :=
      storeFrames_conserves hring hc (hlen ▸ hroom) (hlen ▸ nframes_pos _)
    have hdispatch := tryDispatch_conserves hstore.1 (by rwa [storeFrames_cfg])
    have hall := hstore.trans hdispatch
    rw [List.append_nil] at hall
    exact hall

theorem exec_receive_conserves {i : Instr} {s t : State} (hring : PoolRing s) (hi : isReceive i = true)
    (h : exec i s = .next t) : FramesConserved [] s t := by
  obtain ⟨htrace, -, hpool, hrd, hwr, -, -, -, hcfg⟩ := receive_frame hi h
  rcases htrace with htrace | ⟨c, htrace⟩
  · exact .of_quiet (es := []) hring hpool hrd hwr hcfg (by rw [htrace, List.append_nil]) rfl
  · exact .of_quiet hring hpool hrd hwr hcfg htrace rfl

/-- Every operation but INIT conserves the frames. -/
theorem exec_conserves {i : Instr} {s t : State} (hring : PoolRing s) (hc : s.cfg.Legal) (hinit : ∀ id, i ≠ .init id)
    (h : exec i s = .next t) : FramesConserved (acceptedFrames [i] s) s t := by
  rcases instr_cases i with ⟨id, rfl⟩ | ⟨code, rfl⟩ | hi | hi
  · exact absurd rfl (hinit id)
  · exact absurd h (exec_reservedCmd_ne_next code s t)
  · rcases isTransmit_cases hi with ⟨b, rfl⟩ | rfl | rfl
    · exact execSend_conserves hring hc h
    · rw [acceptedFrames_of_ne_send fun _ => Instr.noConfusion]
      obtain ⟨-, ⟨-, rfl⟩ | ⟨-, rfl⟩⟩ := execFrameSent_cases h
      · exact tryDispatch_conserves (s := { s with txInflight := false }) hring hc
      · exact .of_quiet (es := []) hring rfl rfl rfl rfl (List.append_nil _).symm rfl
    · rw [acceptedFrames_of_ne_send fun _ => Instr.noConfusion]
      obtain ⟨-, rfl⟩ := execDispatch_cases h
      exact tryDispatch_conserves hring hc
  · rw [acceptedFrames_of_ne_send (by rintro b rfl; cases hi)]
    exact exec_receive_conserves hring hi h

/-- Settles O32: by induction on the run, since each operation conserves the frames. -/
theorem framesLeaveInAcceptanceOrder : Obligations.FramesLeaveInAcceptanceOrder := by
  intro is s t hc hring hinit h
  suffices hall : FramesConserved (acceptedFrames is s) s t from ⟨hall.1, hall.2.2⟩
  induction is generalizing s with
  | nil =>
    obtain rfl : s = t := Host.Outcome.next.inj h
    exact .of_quiet (es := []) hring rfl rfl rfl rfl (List.append_nil _).symm rfl
  | cons i is ih =>
    obtain ⟨u, hu, hrest⟩ := execAll_cons_eq_next h
    have hfirst := exec_conserves hring hc (fun id hi => hinit id (by simp [hi])) hu
    obtain ⟨huring, hucfg, -⟩ := id hfirst
    rw [acceptedFrames_cons hu]
    exact hfirst.trans (ih u (hucfg ▸ hc) huring (fun id hmem => hinit id (List.mem_cons_of_mem _ hmem)) hrest)

/-! ## The bytes of a message over its frames (R60, R89) -/

/-- The payload of a frame whose data begin with the payload's bytes. -/
theorem payloadFrom_of_data {dlc : BitVec 4} {data : Bytes8} {hdr v pad : List Byte}
    (hdata : data.toList = hdr ++ v ++ pad) (hdlc : dlc.toNat = (hdr ++ v).length) :
    payloadFrom hdr.length dlc data = v := by
  rw [payloadFrom, slice, hdata, hdlc, List.take_left, List.drop_left]

theorem payloadFrom_singleFrame {b : List Byte} (s : BitVec 8) (h : b.length ≤ 8) :
    payloadFrom 0 (singleFrame b s).dlc (singleFrame b s).data = b :=
  payloadFrom_of_data (hdr := []) (singleFrame_data s h) (singleFrame_dlc s h)

theorem payloadFrom_firstFrame {b : List Byte} (s : BitVec 8) (h : 8 < b.length) :
    payloadFrom 2 (firstFrame b s).dlc (firstFrame b s).data = b.take 6 := by
  have hlen : (b.take 6).length = 6 := by rw [List.length_take]; omega
  refine payloadFrom_of_data (pad := [])
    (hdr := [lowByte (BitVec.ofNat 16 b.length), highByte (BitVec.ofNat 16 b.length)]) ?_ ?_
  · rw [firstFrame_data s h, List.append_nil]; rfl
  · rw [firstFrame_dlc, List.length_append, hlen]; rfl

theorem payloadFrom_contFrame {b : List Byte} (s : BitVec 8) {k : Nat} (h : 8 < b.length) (hk : 1 ≤ k)
    (hkn : k < nframes b.length) :
    payloadFrom 0 (contFrame b s k).dlc (contFrame b s k).data =
      slice b (6 + 8 * (k - 1)) (min b.length (6 + 8 * k)) := by
  refine payloadFrom_of_data (hdr := []) (contFrame_data s h hk hkn) ?_
  rw [contFrame_dlc s h hk hkn, List.nil_append, length_slice]
  omega

theorem framePayload_singleFrame {b : List Byte} (s : BitVec 8) (h : b.length ≤ 8) :
    framePayload (singleFrame b s) = b := by
  have hkind : kindOf (singleFrame b s).id ≠ 1 := by rw [singleFrame, kindOf_mkid]; decide
  rw [framePayload, if_neg hkind, payloadFrom_singleFrame s h]

theorem framePayload_firstFrame {b : List Byte} (s : BitVec 8) (h : 8 < b.length) :
    framePayload (firstFrame b s) = b.take 6 := by
  have hkind : kindOf (firstFrame b s).id = 1 := kindOf_mkid 1 s
  rw [framePayload, if_pos hkind, payloadFrom_firstFrame s h]

theorem framePayload_contFrame {b : List Byte} (s : BitVec 8) {k : Nat} (h : 8 < b.length) (hk : 1 ≤ k)
    (hkn : k < nframes b.length) :
    framePayload (contFrame b s k) = slice b (6 + 8 * (k - 1)) (min b.length (6 + 8 * k)) := by
  have hkind : kindOf (contFrame b s k).id ≠ 1 := by rw [contFrame, kindOf_mkid]; decide
  rw [framePayload, if_neg hkind, payloadFrom_contFrame s h hk hkn]

/-- Settles O23: the payload of frame k is the k-th piece of the message, and the pieces are neighbours. -/
theorem segmentationPreservesBytes : Obligations.SegmentationPreservesBytes := by
  intro b s
  by_cases h : b.length ≤ 8
  · rw [segment_of_le s h, List.flatMap_singleton, framePayload_singleFrame s h]
  · have hgt : 8 < b.length := Nat.lt_of_not_le h
    have hpieces : (List.range (nframes b.length - 1)).flatMap (fun j => framePayload (contFrame b s (j + 1))) =
        (List.range (nframes b.length - 1)).flatMap
          (fun j => slice b (6 + 8 * j) (min b.length (6 + 8 * (j + 1)))) := by
      refine List.flatMap_congr fun j hj => ?_
      have := List.mem_range.1 hj
      exact framePayload_contFrame s hgt (by omega) (by omega)
    rw [segment_of_gt s hgt, List.flatMap_cons, framePayload_firstFrame s hgt, List.flatMap_map, hpieces,
      take_append_slices]
    exact List.take_of_length_le (nframes_of_gt hgt).2.1

/-! ## What each side writes (R72, R70) -/

/-- A transmit operation writes the transmit side, the room answers, the events and the result only. -/
theorem exec_transmit_frame {i : Instr} {s t : State} (hi : isTransmit i = true) (h : exec i s = .next t) :
    t = { s with
      txPool := t.txPool, txRd := t.txRd, txWr := t.txWr, txInflight := t.txInflight, txDrops := t.txDrops,
      trace := t.trace, roomAnswers := t.roomAnswers, roomDraws := t.roomDraws, result := t.result } := by
  rcases isTransmit_cases hi with ⟨b, rfl⟩ | rfl | rfl
  · obtain ⟨-, ⟨-, rfl⟩ | ⟨-, -, rfl⟩ | ⟨-, -, rfl⟩⟩ := execSend_cases h
    · rfl
    · rfl
    · rw [tryDispatch_frame, storeFrames_frame]
  · obtain ⟨-, ⟨-, rfl⟩ | ⟨-, rfl⟩⟩ := execFrameSent_cases h
    · rw [tryDispatch_frame]
    · rfl
  · obtain ⟨-, rfl⟩ := execDispatch_cases h
    rw [tryDispatch_frame]

/-- A receive operation writes the receive side, the events and the result only. -/
theorem exec_receive_frame {i : Instr} {s t : State} (hi : isReceive i = true) (h : exec i s = .next t) :
    t = { s with
      rs := t.rs, dq := t.dq, dqRd := t.dqRd, dqWr := t.dqWr, rxDrops := t.rxDrops,
      trace := t.trace, result := t.result } := by
  rcases isReceive_cases hi with ⟨m, rfl⟩ | ⟨src, hsrc⟩
  · obtain ⟨-, ⟨-, rfl⟩ | ⟨-, rfl⟩⟩ := execRecv_cases h
    · rfl
    · rfl
  · obtain ⟨-, u, hu, rfl⟩ := received_of_exec hsrc h
    cases hu with
    | drop c => rfl
    | idleDrop c => rfl
    | store r _ => rfl
    | deliver m _ => rw [dqPush_frame]; rfl

/-- Settles O46: the two frames. -/
theorem sidesWriteTheirOwnState : Obligations.SidesWriteTheirOwnState :=
  fun _ _ _ h => ⟨fun hi => exec_transmit_frame hi h, fun hi => exec_receive_frame hi h⟩

theorem exec_cfg_initDone {i : Instr} {s t : State} (h : exec i s = .next t) :
    t.cfg = s.cfg ∧ (s.initDone = true → t.initDone = true) := by
  rcases instr_cases i with ⟨id, rfl⟩ | ⟨code, rfl⟩ | hi | hi
  · obtain rfl := finish_eq_next.1 h
    exact ⟨rfl, fun _ => rfl⟩
  · exact absurd h (exec_reservedCmd_ne_next code s t)
  · rw [exec_transmit_frame hi h]
    exact ⟨rfl, id⟩
  · rw [exec_receive_frame hi h]
    exact ⟨rfl, id⟩

/-- Settles O50: INIT sets `init_done`, the two sides write neither it nor the configuration, and taking an arrival
from the inbox does not either. -/
theorem configurationIsFixed : Obligations.ConfigurationIsFixed := by
  intro s t h
  rcases step_eq_next h with ⟨-, rfl⟩ | ⟨a, rest, i, left, -, -, h⟩
  · exact ⟨rfl, id⟩
  · exact exec_cfg_initDone (s := { s with inbox := pendingAfter left rest }) h

/-! ## The two sides run side by side (R72, R66) -/

/-- The transmit side of `a` beside the receive side of `b`, with events `tr` and last result `r`. -/
def joinSides (a b : State) (tr : List Event) (r : Result) : State :=
  withTransmitSide b a b.localId b.rxDrops tr r

theorem joinSides_self (s : State) : joinSides s s s.trace s.result = s := rfl

/-- Two states agree on what belongs to neither side. -/
def SharedAgree (a b : State) : Prop :=
  a.initDone = b.initDone ∧ a.localId = b.localId ∧ a.cfg = b.cfg ∧ a.inbox = b.inbox

theorem SharedAgree.refl (s : State) : SharedAgree s s := ⟨rfl, rfl, rfl, rfl⟩

theorem joinSides_eq_withReceiveSide {a b : State} (hab : SharedAgree a b) (tr : List Event) (r : Result) :
    joinSides a b tr r = withReceiveSide a b.rs b.dq b.dqRd b.dqWr b.rxDrops a.txDrops tr r := by
  obtain ⟨hinit, hid, hcfg, -⟩ := hab
  rw [joinSides, withTransmitSide, withReceiveSide, hinit, hid, hcfg]

section
variable {i : Instr} {a a' b b' : State}

theorem SharedAgree.of_transmit (hab : SharedAgree a b) (hi : isTransmit i = true) (h : exec i a = .next a') :
    SharedAgree a' b := by
  rw [exec_transmit_frame hi h]
  exact hab

theorem SharedAgree.of_receive (hab : SharedAgree a b) (hi : isReceive i = true) (h : exec i b = .next b') :
    SharedAgree a b' := by
  rw [exec_receive_frame hi h]
  exact hab

/-- A transmit operation does the same beside any receive side. -/
theorem exec_transmit_joinSides (hab : SharedAgree a b) (hi : isTransmit i = true) (h : exec i a = .next a') :
    ∃ es, a'.trace = a.trace ++ es ∧
      ∀ tr r, exec i (joinSides a b tr r) = .next (joinSides a' b (tr ++ es) a'.result) := by
  obtain ⟨es, d, hdrops, hrun⟩ := exec_withReceiveSide hi h
  refine ⟨es, ?_, fun tr r => ?_⟩
  · have hself := hrun a.rs a.dq a.dqRd a.dqWr a.rxDrops a.txDrops a.trace a.result
    exact congrArg State.trace (Host.Outcome.next.inj (h.symm.trans hself))
  · rw [joinSides_eq_withReceiveSide hab, joinSides_eq_withReceiveSide (hab.of_transmit hi h), hrun, hdrops]

/-- A receive operation does the same beside any transmit side. -/
theorem exec_receive_joinSides (hi : isReceive i = true) (h : exec i b = .next b') :
    ∃ es, b'.trace = b.trace ++ es ∧
      ∀ tr r, exec i (joinSides a b tr r) = .next (joinSides a b' (tr ++ es) b'.result) := by
  obtain ⟨es, d, hdrops, htrace, hrun⟩ := exec_withTransmitSide hi h
  refine ⟨es, htrace, fun tr r => ?_⟩
  rw [joinSides, hrun, joinSides, hdrops, exec_receive_localId hi h]

end

/-- Settles O47: beside the other side each operation does what it does alone, so that both orders end with the
transmit side of the one and the receive side of the other. -/
theorem sidesCommute : Obligations.SidesCommute := by
  intro i j s hi hj hinit
  obtain ⟨a, ha⟩ := exec_completes hinit (i := i) (by rintro code rfl; cases hi)
  obtain ⟨b, hb⟩ := exec_completes hinit (i := j) (by rintro code rfl; cases hj)
  have hagree : SharedAgree s b := (SharedAgree.refl s).of_receive hj hb
  obtain ⟨esa, -, hrunA⟩ := exec_transmit_joinSides (.refl s) hi ha
  obtain ⟨esb, -, hrunB⟩ := exec_receive_joinSides (a := a) hj hb
  obtain ⟨esa', -, hrunA'⟩ := exec_transmit_joinSides hagree hi ha
  obtain ⟨esb', -, hrunB'⟩ := exec_receive_joinSides (a := s) hj hb
  rw [← joinSides_self s]
  refine ⟨joinSides a b ((s.trace ++ esa) ++ esb) b.result, joinSides a b ((s.trace ++ esb') ++ esa') a.result,
    ?_, ?_, rfl, rfl, rfl, rfl, rfl, rfl, rfl, rfl, rfl, rfl, rfl, rfl, rfl⟩
  · rw [execAll_cons_of_next (hrunA ..), execAll_cons_of_next (hrunB ..)]
    rfl
  · rw [execAll_cons_of_next (hrunB' ..), execAll_cons_of_next (hrunA' ..)]
    rfl

theorem isReceive_of_isTransmit {i : Instr} (h : isTransmit i = true) : isReceive i = false := by
  rcases isTransmit_cases h with ⟨b, rfl⟩ | rfl | rfl <;> rfl

theorem isTransmit_of_isReceive {i : Instr} (h : isReceive i = true) : isTransmit i = false :=
  Bool.eq_false_iff.2 fun ht => by simp [isReceive_of_isTransmit ht] at h

/-- A run of operations of both sides is the run of its transmit operations beside the run of its receive operations.
Its events are those of the two runs in some order, and so those of the first if the second emits none. -/
theorem execAll_joinSides {is : List Instr} {a a' b b' : State}
    (hsides : ∀ i ∈ is, isTransmit i = true ∨ isReceive i = true) (hab : SharedAgree a b)
    (ha : execAll (is.filter isTransmit) a = .next a') (hb : execAll (is.filter isReceive) b = .next b')
    (tr : List Event) (r : Result) :
    ∃ ea eb es r', a'.trace = a.trace ++ ea ∧ b'.trace = b.trace ++ eb ∧ (eb = [] → es = ea) ∧
      execAll is (joinSides a b tr r) = .next (joinSides a' b' (tr ++ es) r') := by
  induction is generalizing a b tr r with
  | nil =>
    obtain rfl : a = a' := Host.Outcome.next.inj ha
    obtain rfl : b = b' := Host.Outcome.next.inj hb
    exact ⟨[], [], [], r, by simp, by simp, fun _ => rfl, by rw [List.append_nil]; rfl⟩
  | cons i is ih =>
    have hrest : ∀ j ∈ is, isTransmit j = true ∨ isReceive j = true := fun j hj => hsides j (List.mem_cons_of_mem i hj)
    rcases hsides i List.mem_cons_self with hi | hi
    · rw [List.filter_cons_of_pos hi] at ha
      rw [List.filter_cons_of_neg (by simp [isReceive_of_isTransmit hi])] at hb
      obtain ⟨a₁, ha₁, ha⟩ := execAll_cons_eq_next ha
      obtain ⟨e₁, htr₁, hrun⟩ := exec_transmit_joinSides hab hi ha₁
      obtain ⟨ea, eb, es, r', htra, htrb, heq, hall⟩ := ih hrest (hab.of_transmit hi ha₁) ha hb (tr ++ e₁) a₁.result
      refine ⟨e₁ ++ ea, eb, e₁ ++ es, r', ?_, htrb, fun h => by rw [heq h], ?_⟩
      · rw [htra, htr₁, List.append_assoc]
      · rw [execAll_cons_of_next (hrun tr r), hall, List.append_assoc]
    · rw [List.filter_cons_of_neg (by simp [isTransmit_of_isReceive hi])] at ha
      rw [List.filter_cons_of_pos hi] at hb
      obtain ⟨b₁, hb₁, hb⟩ := execAll_cons_eq_next hb
      obtain ⟨e₁, htr₁, hrun⟩ := exec_receive_joinSides (a := a) hi hb₁
      obtain ⟨ea, eb, es, r', htra, htrb, heq, hall⟩ := ih hrest (hab.of_receive hi hb₁) ha hb (tr ++ e₁) b₁.result
      refine ⟨ea, e₁ ++ eb, e₁ ++ es, r', htra, ?_, fun h => ?_, ?_⟩
      · rw [htrb, htr₁, List.append_assoc]
      · obtain ⟨rfl, hnil⟩ := List.append_eq_nil_iff.1 h
        exact heq hnil
      · rw [execAll_cons_of_next (hrun tr r), hall, List.append_assoc]

/-! ## Reassembly (R89, R162 to R170) -/

/-- The slot that holds the first n bytes of the message `b` (R165, R168). -/
def partialSlot (maxMsg : Nat) (b : List Byte) (n : Nat) : RxSlot :=
  { active := true, total := BitVec.ofNat 16 b.length, acc := BitVec.ofNat 16 n,
    buf := b.take n ++ zeros (maxMsg - n) }

theorem partialSlot_acc_toNat (maxMsg : Nat) (b : List Byte) {n : Nat} (hn : n ≤ 65535) :
    (partialSlot maxMsg b n).acc.toNat = n := by
  rw [partialSlot, BitVec.toNat_ofNat]
  omega

theorem partialSlot_total_toNat (maxMsg : Nat) {b : List Byte} (n : Nat) (hb : b.length ≤ 65535) :
    (partialSlot maxMsg b n).total.toNat = b.length := by
  rw [partialSlot, BitVec.toNat_ofNat]
  omega

/-- `s` after the first n bytes of `b` have come in from `src`. -/
def holding (src : BitVec 8) (b : List Byte) (n : Nat) (s : State) : State :=
  { s with rs := s.rs.set src.toNat (partialSlot s.cfg.maxMsg b n), result := .none }

/-- From `s` to `t` the message `b` of `src` was delivered, its slot is idle, and nothing but the receive side, the
events and the result was written. -/
def Delivered (src : BitVec 8) (b : List Byte) (s t : State) : Prop :=
  DqRing t ∧ Delivery src b s t ∧ t.rxSlot src = idleSlot s.cfg.maxMsg ∧
    t = { s with rs := t.rs, dq := t.dq, dqWr := t.dqWr, rxDrops := t.rxDrops, trace := t.trace, result := .none }

/-- Writing the next bytes of a message behind those that are there. -/
theorem memWrite_take {b : List Byte} {maxMsg n m : Nat} (hnm : n ≤ m) (hmb : m ≤ b.length) (hb : b.length ≤ maxMsg) :
    memWrite (b.take n ++ zeros (maxMsg - n)) n (slice b n m) = b.take m ++ zeros (maxMsg - m) := by
  have hn : (b.take n).length = n := by rw [List.length_take]; omega
  have hm : (slice b n m).length = m - n := by rw [length_slice]; omega
  have htake : (b.take n ++ zeros (maxMsg - n)).take n = b.take n := List.take_left' hn
  have hdrop : (b.take n ++ zeros (maxMsg - n)).drop m = zeros (maxMsg - m) := by
    rw [List.drop_append, hn, List.drop_eq_nil_of_le (by omega), List.nil_append, zeros, List.drop_replicate, zeros]
    congr 1
    omega
  rw [memWrite, hm, Nat.add_sub_cancel' hnm, htake, hdrop, ← slice_zero, slice_append b (Nat.zero_le n) hnm, slice_zero]

section
variable {src : BitVec 8} {b : List Byte} {s t : State}

theorem Delivered.of_holding {n : Nat} (h : Delivered src b (holding src b n s) t) : Delivered src b s t := by
  obtain ⟨hring, hdel, hslot, hframe⟩ := h
  exact ⟨hring, Delivery_congr hdel rfl rfl rfl rfl rfl rfl, hslot, hframe⟩

theorem holding_holding (n m : Nat) : holding src b m (holding src b n s) = holding src b m s := by
  simp only [holding, List.set_set]

theorem rxSlot_holding (n : Nat) (hlen : s.rs.length = 256) :
    (holding src b n s).rxSlot src = partialSlot s.cfg.maxMsg b n := rxSlot_set s src _ hlen

/-- Completion on an idle slot delivers the message (R170). -/
theorem complete_delivered (hc : s.cfg.Legal) (hq : DqRing s) (hlen : s.rs.length = 256)
    (hb : b.length ≤ s.cfg.maxMsg) :
    Delivered src b s { complete src b (s.idleRxSlot src) with result := .none } := by
  obtain ⟨hring, hdel, hframe⟩ := complete_idle_spec src b s hc hq hb
  refine ⟨hring, hdel, ?_, ?_⟩
  · rw [hframe]
    exact rxSlot_set s src _ hlen
  · rw [hframe]

/-- A message of at most 8 bytes is delivered by its one frame (R162). -/
theorem receiveSingle_singleFrame (h8 : b.length ≤ 8) (hb : b.length ≤ s.cfg.maxMsg) :
    receiveSingle src (singleFrame b src).dlc (singleFrame b src).data s = complete src b (s.idleRxSlot src) := by
  have hfit : ¬(s.idleRxSlot src).cfg.maxMsg < (singleFrame b src).dlc.toNat := by
    rw [singleFrame_dlc src h8, State.idleRxSlot_cfg]
    omega
  rw [receiveSingle, if_neg hfit, payloadFrom_singleFrame src h8]

/-- The first frame of a longer message leaves its 6 bytes in the slot (R165). -/
theorem receiveFirst_firstFrame (h8 : 8 < b.length) (hb : b.length ≤ s.cfg.maxMsg) (hM : s.cfg.maxMsg ≤ 65535) :
    receiveFirst src (firstFrame b src).dlc (firstFrame b src).data s =
      s.setRxSlot src (partialSlot s.cfg.maxMsg b 6) := by
  have htotal : headerTotal (firstFrame b src).data = BitVec.ofNat 16 b.length := le16_lowByte_highByte _
  have hT : (BitVec.ofNat 16 b.length).toNat = b.length := by rw [BitVec.toNat_ofNat]; omega
  have h1 : ¬(firstFrame b src).dlc.toNat < 2 := by rw [firstFrame_dlc]; omega
  have h2 : ¬s.cfg.maxMsg < b.length := by omega
  have h3 : ¬b.length < (firstFrame b src).dlc.toNat - 2 := by rw [firstFrame_dlc]; omega
  have h4 : ¬(firstFrame b src).dlc.toNat - 2 = b.length := by rw [firstFrame_dlc]; omega
  simp only [receiveFirst, State.idleRxSlot_cfg, htotal, hT, if_neg h1, if_neg h2, if_neg h3, if_neg h4,
    payloadFrom_firstFrame src h8, setRxSlot_idleRxSlot]
  rfl

section
variable {dlc : BitVec 4} {data : Bytes8} {n : Nat}

/-- A frame with the next bytes of a message that do not end it adds them to the slot (R168). -/
theorem receiveCont_partialSlot (hslot : s.rxSlot src = partialSlot s.cfg.maxMsg b n)
    (hdata : payloadFrom 0 dlc data = slice b n (n + dlc.toNat)) (hn : n + dlc.toNat < b.length)
    (hb : b.length ≤ s.cfg.maxMsg) (hM : s.cfg.maxMsg ≤ 65535) :
    receiveCont src dlc data s = s.setRxSlot src (partialSlot s.cfg.maxMsg b (n + dlc.toNat)) := by
  have hacc := partialSlot_acc_toNat s.cfg.maxMsg b (show n ≤ 65535 by omega)
  have htotal := partialSlot_total_toNat s.cfg.maxMsg n (hb.trans hM)
  have hactive : ¬(!(partialSlot s.cfg.maxMsg b n).active) = true := Bool.false_ne_true
  have hbuf := memWrite_take (Nat.le_add_right n dlc.toNat) hn.le hb
  simp only [receiveCont, hslot, hacc, htotal, hdata, if_neg hactive, if_neg hn.not_gt, if_neg hn.ne]
  rw [partialSlot, hbuf]
  rfl

/-- A frame with the last bytes of a message completes it (R168, R170). -/
theorem receiveCont_partialSlot_last (hslot : s.rxSlot src = partialSlot s.cfg.maxMsg b n)
    (hdata : payloadFrom 0 dlc data = slice b n (n + dlc.toNat)) (hn : n + dlc.toNat = b.length)
    (hb : b.length ≤ s.cfg.maxMsg) (hM : s.cfg.maxMsg ≤ 65535) :
    receiveCont src dlc data s = complete src b (s.idleRxSlot src) := by
  have hacc := partialSlot_acc_toNat s.cfg.maxMsg b (show n ≤ 65535 by omega)
  have htotal := partialSlot_total_toNat s.cfg.maxMsg n (hb.trans hM)
  have hactive : ¬(!(partialSlot s.cfg.maxMsg b n).active) = true := Bool.false_ne_true
  have hbuf := memWrite_take (Nat.le_add_right n dlc.toNat) hn.le hb
  have hread : memRead (b.take (n + dlc.toNat) ++ zeros (s.cfg.maxMsg - (n + dlc.toNat))) 0 b.length = b := by
    rw [memRead, Nat.zero_add, slice_zero, hn, List.take_length, List.take_left]
  simp only [receiveCont, hslot, hacc, htotal, hdata, if_neg hactive, if_neg hn.not_gt, if_pos hn]
  rw [partialSlot, hbuf, hread]

end

/-- The bytes of CONT frame j, counted from 0, are those from `6 + 8·j` on (R89). -/
theorem payloadFrom_contFrame_next {j : Nat} (h8 : 8 < b.length) (hj : j + 1 < nframes b.length) :
    payloadFrom 0 (contFrame b src (j + 1)).dlc (contFrame b src (j + 1)).data =
      slice b (6 + 8 * j) (6 + 8 * j + (contFrame b src (j + 1)).dlc.toNat) := by
  have hle : 6 + 8 * j ≤ min b.length (6 + 8 * (j + 1)) := (contFrame_len h8 (Nat.le_add_left 1 j) hj).1.le
  rw [payloadFrom_contFrame src h8 (Nat.le_add_left 1 j) hj, contFrame_dlc src h8 (Nat.le_add_left 1 j) hj,
    Nat.add_sub_cancel, Nat.add_sub_cancel' hle]

section
variable (hi : s.initDone = true) (hc : s.cfg.Legal) (h8 : 8 < b.length) (hb : b.length ≤ s.cfg.maxMsg)
include hi hc h8 hb

theorem exec_loopback_firstFrame : exec (loopback (firstFrame b src)) s = .next (holding src b 6 s) := by
  obtain ⟨-, -, hM, -⟩ := hc
  have hdlc : (firstFrame b src).dlc.toNat ≤ 8 := (firstFrame_dlc b src).le
  rw [exec_first (i := loopback (firstFrame b src)) hi hdlc (.inr rfl), receiveFirst_firstFrame h8 hb hM]
  rfl

variable (hlen : s.rs.length = 256)
include hlen

/-- A CONT frame that is not the last takes the slot 8 bytes further. -/
theorem exec_loopback_contFrame {j : Nat} (hj : j + 2 < nframes b.length) :
    exec (loopback (contFrame b src (j + 1))) (holding src b (6 + 8 * j) s) =
      .next (holding src b (6 + 8 * (j + 1)) s) := by
  obtain ⟨-, -, hM, -⟩ := hc
  have hfit := nframes_of_gt h8
  have hdlc : (contFrame b src (j + 1)).dlc.toNat = 8 := by
    rw [contFrame_dlc src h8 (by omega) (by omega)]; omega
  have hnext : 6 + 8 * j + (contFrame b src (j + 1)).dlc.toNat = 6 + 8 * (j + 1) := by omega
  rw [exec_cont (i := loopback (contFrame b src (j + 1))) (s := holding src b (6 + 8 * j) s) hi hdlc.le (.inr rfl),
    receiveCont_partialSlot (rxSlot_holding _ hlen) (payloadFrom_contFrame_next h8 (by omega)) (by omega) hb hM,
    hnext, ← holding_holding (6 + 8 * j) (6 + 8 * (j + 1))]
  rfl

/-- The CONT frames but the last, one after the other. -/
theorem execAll_loopback_contFrames {n : Nat} (hn : n + 1 < nframes b.length) :
    execAll ((List.range n).map fun j => loopback (contFrame b src (j + 1))) (holding src b 6 s) =
      .next (holding src b (6 + 8 * n) s) := by
  induction n with
  | zero => rfl
  | succ n ih =>
    rw [List.range_succ, List.map_append, execAll_append (ih (by omega)), List.map_singleton,
      execAll_cons_of_next (exec_loopback_contFrame hi hc h8 hb hlen hn)]
    rfl

/-- The last CONT frame completes the message. -/
theorem exec_loopback_contFrame_last (hq : DqRing s) {j : Nat} (hj : j + 2 = nframes b.length) :
    ∃ t, exec (loopback (contFrame b src (j + 1))) (holding src b (6 + 8 * j) s) = .next t ∧ Delivered src b s t := by
  obtain ⟨-, -, hM, -⟩ := id hc
  have hfit := nframes_of_gt h8
  have hdlc : (contFrame b src (j + 1)).dlc.toNat = b.length - (6 + 8 * j) := by
    rw [contFrame_dlc src h8 (by omega) (by omega)]; omega
  refine ⟨_, exec_cont (s := holding src b (6 + 8 * j) s) hi (by omega) (.inr rfl), ?_⟩
  rw [receiveCont_partialSlot_last (rxSlot_holding _ hlen) (payloadFrom_contFrame_next h8 (by omega)) (by omega) hb hM]
  exact .of_holding (complete_delivered hc hq (List.length_set.trans hlen) hb)

end

/-- The frames of a message, looped back in order, deliver it. -/
theorem execAll_loopback_segment (hi : s.initDone = true) (hc : s.cfg.Legal) (hq : DqRing s)
    (hlen : s.rs.length = 256) (hb : b.length ≤ s.cfg.maxMsg) :
    ∃ t, execAll ((segment b src).map loopback) s = .next t ∧ Delivered src b s t := by
  by_cases h : b.length ≤ 8
  · have hdlc : (singleFrame b src).dlc.toNat ≤ 8 := by rwa [singleFrame_dlc src h]
    have hrun := exec_single (i := loopback (singleFrame b src)) hi hdlc (.inr rfl)
    rw [receiveSingle_singleFrame h hb] at hrun
    rw [segment_of_le src h, List.map_singleton, execAll_cons_of_next hrun]
    exact ⟨_, rfl, complete_delivered hc hq hlen hb⟩
  · have h8 : 8 < b.length := Nat.lt_of_not_le h
    obtain ⟨n, hn⟩ : ∃ n, nframes b.length = n + 2 := Nat.exists_eq_add_of_le' (nframes_of_gt h8).1
    obtain ⟨t, hlast, hdel⟩ := exec_loopback_contFrame_last (src := src) hi hc h8 hb hlen hq hn.symm
    refine ⟨t, ?_, hdel⟩
    rw [segment_of_gt src h8, hn, List.map_cons, execAll_cons_of_next (exec_loopback_firstFrame hi hc h8 hb),
      List.map_map, Nat.add_sub_cancel (n + 1) 1, List.range_succ, List.map_append]
    refine (execAll_append (execAll_loopback_contFrames hi hc h8 hb hlen (by omega))).trans ?_
    rw [List.map_singleton]
    exact execAll_cons_of_next hlast
end

/-- Settles O43: the slot holds the bytes of the frames that have come in, until the last frame completes them. -/
theorem reassemblyInvertsSegmentation : Obligations.ReassemblyInvertsSegmentation :=
  fun _ _ _ hi hc hq hlen hb => execAll_loopback_segment hi hc hq hlen hb

/-! ## The round trip (R60, R101, R133, R140, R194) -/

/-- The events of handing a frame over: the driver is asked once, and has room (R140). -/
def handOverEvents (f : Frame) : List Event := [.roomQuery true, .sendFrame f]

/-- A frame is in flight, the frames `fs` are queued, and the driver will have room for each of them. -/
def Sending (fs : List Frame) (s : State) : Prop :=
  s.initDone = true ∧ s.cfg.Legal ∧ PoolRing s ∧ s.txInflight = true ∧ queuedFrames s = fs ∧
    s.roomAnswers = List.replicate fs.length true

section
variable {f : Frame} {fs : List Frame} {s : State}

/-- A dispatch step with a frame queued, none in flight and room at the driver. -/
theorem tryDispatch_sending (hi : s.initDone = true) (hc : s.cfg.Legal) (hring : PoolRing s)
    (hidle : s.txInflight = false) (hq : queuedFrames s = f :: fs)
    (hroom : s.roomAnswers = List.replicate (f :: fs).length true) :
    Sending fs (tryDispatch s) ∧ (tryDispatch s).trace = s.trace ++ handOverEvents f := by
  obtain ⟨-, hP, -⟩ := id hc
  obtain ⟨hring', hstep⟩ := tryDispatch_spec hring hP
  have hanswer : roomAnswer s = true := by rw [roomAnswer, hroom]; rfl
  rw [DispatchStep, if_neg (by simp [hidle, hq]), if_pos hanswer] at hstep
  obtain ⟨⟨hans, -⟩, hflight, f', hq', htrace⟩ := hstep
  obtain ⟨rfl, hrest⟩ : f = f' ∧ fs = queuedFrames (tryDispatch s) := List.cons.inj (hq.symm.trans hq')
  refine ⟨⟨?_, ?_, hring', hflight, hrest.symm, ?_⟩, htrace⟩
  · rwa [tryDispatch_initDone]
  · rwa [tryDispatch_cfg]
  · rw [hans, hroom]; rfl

/-- The next FRAME_SENT hands over the oldest frame (R142). -/
theorem Sending.frameSent (h : Sending (f :: fs) s) :
    ∃ t, exec .frameSent s = .next t ∧ Sending fs t ∧ t.trace = s.trace ++ handOverEvents f ∧
      t.txDrops = s.txDrops := by
  obtain ⟨hi, hc, hring, hflight, hq, hroom⟩ := h
  obtain ⟨t, ht⟩ := exec_completes (i := .frameSent) hi nofun
  refine ⟨t, ht, ?_⟩
  obtain ⟨-, ⟨-, rfl⟩ | ⟨hidle, -⟩⟩ := execFrameSent_cases ht
  · obtain ⟨hsend, htrace⟩ := tryDispatch_sending (s := { s with txInflight := false }) hi hc hring rfl hq hroom
    exact ⟨hsend, htrace, tryDispatch_txDrops _⟩
  · rw [hflight] at hidle
    cases hidle

/-- The FRAME_SENT of the last frame ends in the idle state (R142). -/
theorem Sending.frameSent_last (h : Sending [] s) :
    ∃ t, exec .frameSent s = .next t ∧ txStatus t = .idle ∧ t.trace = s.trace ∧ t.txDrops = s.txDrops := by
  obtain ⟨hi, ⟨-, hP, -⟩, hring, hflight, hq, -⟩ := h
  obtain ⟨t, ht⟩ := exec_completes (i := .frameSent) hi nofun
  refine ⟨t, ht, ?_⟩
  obtain ⟨-, ⟨-, rfl⟩ | ⟨hidle, -⟩⟩ := execFrameSent_cases ht
  · obtain ⟨-, hstep⟩ := tryDispatch_spec (s := { s with txInflight := false }) hring hP
    rw [DispatchStep, if_pos (.inr hq)] at hstep
    obtain ⟨hq', hidle, htrace, -, -⟩ := hstep
    have hcount := queuedFrames_eq_nil.1 (hq'.trans hq)
    refine ⟨?_, htrace, tryDispatch_txDrops _⟩
    show txStatus (tryDispatch { s with txInflight := false }) = .idle
    rw [txStatus, hidle, hcount]
    rfl
  · rw [hflight] at hidle
    cases hidle

/-- One FRAME_SENT for each frame hands all of them over, in order (R146). -/
theorem Sending.drain (h : Sending fs s) :
    ∃ t, execAll (List.replicate (fs.length + 1) .frameSent) s = .next t ∧ txStatus t = .idle ∧
      t.trace = s.trace ++ fs.flatMap handOverEvents ∧ t.txDrops = s.txDrops := by
  induction fs generalizing s with
  | nil =>
    obtain ⟨t, ht, hidle, htrace, hdrops⟩ := h.frameSent_last
    exact ⟨t, execAll_cons_of_next ht, hidle, by rw [htrace, List.flatMap_nil, List.append_nil], hdrops⟩
  | cons f fs ih =>
    obtain ⟨u, hu, hsend, htrace, hdrops⟩ := h.frameSent
    obtain ⟨t, ht, hidle, htrace', hdrops'⟩ := ih hsend
    exact ⟨t, (execAll_cons_of_next hu).trans ht, hidle, by rw [htrace', htrace, List.append_assoc]; rfl,
      hdrops'.trans hdrops⟩

end

/-- From the idle state SEND of a message that fits hands its first frame over and queues the others (R133). -/
theorem exec_send_sending {b : List Byte} {s : State} (hi : s.initDone = true) (hc : s.cfg.Legal) (hring : PoolRing s)
    (hidle : s.txInflight = false) (hq : queuedFrames s = []) (hb : b.length ≤ s.cfg.maxMsg)
    (hn : nframes b.length ≤ s.cfg.poolFrames) (hroom : s.roomAnswers = List.replicate (nframes b.length) true) :
    ∃ t f fs, exec (.send b) s = .next t ∧ segment b s.localId = f :: fs ∧ Sending fs t ∧
      t.trace = s.trace ++ handOverEvents f ∧ t.txDrops = s.txDrops := by
  obtain ⟨t, ht⟩ := exec_completes (i := .send b) hi nofun
  have hlen := length_segment b s.localId
  obtain ⟨f, fs, hseg⟩ := List.exists_cons_of_length_pos (hlen ▸ nframes_pos b.length)
  refine ⟨t, f, fs, ht, hseg, ?_⟩
  have hcount := queuedFrames_eq_nil.1 hq
  obtain ⟨-, ⟨hlarge, -⟩ | ⟨-, hfull, -⟩ | ⟨-, -, rfl⟩⟩ := execSend_cases ht
  · simp only [tooLarge, Bool.or_eq_true, decide_eq_true_eq] at hlarge
    omega
  · rw [canAcquire, decide_eq_false_iff_not, txFree_eq] at hfull
    omega
  · obtain ⟨hring', hq'⟩ := storeFrames_spec (segment b s.localId) hring hc.2.1 (by omega)
    obtain ⟨hsend, htrace⟩ := tryDispatch_sending (s := storeFrames s (segment b s.localId)) (f := f) (fs := fs)
      (by rwa [storeFrames_initDone]) (by rwa [storeFrames_cfg]) hring' (by rwa [storeFrames_txInflight])
      (by rw [hq', hq, hseg, List.nil_append]) (by rw [storeFrames_roomAnswers, hroom, ← hlen, hseg])
    refine ⟨hsend, htrace.trans ?_, ?_⟩
    · rw [storeFrames_trace]
    · rw [tryDispatch_txDrops, storeFrames_txDrops]

/-- SEND and then one FRAME_SENT for each frame of the message send the whole message. -/
theorem execAll_send_drain {b : List Byte} {s : State} (hi : s.initDone = true) (hc : s.cfg.Legal) (hring : PoolRing s)
    (hidle : s.txInflight = false) (hq : queuedFrames s = []) (hb : b.length ≤ s.cfg.maxMsg)
    (hn : nframes b.length ≤ s.cfg.poolFrames) (hroom : s.roomAnswers = List.replicate (nframes b.length) true) :
    ∃ t, execAll (.send b :: List.replicate (segment b s.localId).length .frameSent) s = .next t ∧
      txStatus t = .idle ∧ t.trace = s.trace ++ (segment b s.localId).flatMap handOverEvents ∧
      t.txDrops = s.txDrops := by
  obtain ⟨u, f, fs, hu, hseg, hsend, htrace, hdrops⟩ := exec_send_sending hi hc hring hidle hq hb hn hroom
  obtain ⟨t, ht, hst, htrace', hdrops'⟩ := hsend.drain
  rw [hseg]
  exact ⟨t, (execAll_cons_of_next hu).trans ht, hst, by rw [htrace', htrace, List.append_assoc]; rfl,
    hdrops'.trans hdrops⟩

/-- What RECV returns of a legal entry, with room for its whole message. -/
theorem responseOf_eq {maxMsg : Nat} {e : DqEntry} {src : BitVec 8} {m : List Byte} {maxSize : Half}
    (hok : DqEntryOk maxMsg e) (hused : e.used = true) (hm : e.message = (src, m)) (hroom : m.length ≤ maxSize.toNat) :
    responseOf e maxSize = .response true (BitVec.ofNat 16 m.length) src m := by
  obtain ⟨hbytes, hlen⟩ := hok
  rw [if_pos hused] at hlen
  obtain ⟨rfl, rfl⟩ := Prod.mk.inj hm
  have hmlen : (slice e.bytes 0 e.len.toNat).length = e.len.toNat := by
    rw [length_slice, hbytes]
    omega
  rw [responseOf, Nat.min_eq_left (hmlen ▸ hroom), hmlen]

/-- RECV with enough room returns the oldest message whole and removes it (R193, R194). -/
theorem exec_recv_oldest {s : State} {src : BitVec 8} {m : List Byte} {q : List (BitVec 8 × List Byte)}
    {maxSize : Half} (hi : s.initDone = true) (hinv : s.Inv) (hq : queuedMessages s = (src, m) :: q)
    (hroom : m.length ≤ maxSize.toNat) :
    ∃ t, exec (.recv maxSize) s = .next t ∧ queuedMessages t = q ∧
      t = { s with dq := t.dq, dqRd := t.dqRd, result := .response true (BitVec.ofNat 16 m.length) src m } := by
  obtain ⟨⟨-, -, -, -, hD⟩, -, hring, -, -, -, hentries⟩ := hinv
  have hpos : 0 < dqCount s := by
    rw [Nat.pos_iff_ne_zero, Ne, ← queuedMessages_eq_nil, hq]
    exact List.cons_ne_nil _ _
  obtain ⟨-, hmem, hused, hpop⟩ := dqPop_spec hring hD hpos
  obtain ⟨hmsg, hrest⟩ := List.cons.inj (hpop.symm.trans hq)
  obtain ⟨t, ht⟩ := exec_completes (i := .recv maxSize) hi nofun
  refine ⟨t, ht, ?_⟩
  obtain ⟨-, ⟨hempty, -⟩ | ⟨-, rfl⟩⟩ := execRecv_cases ht
  · rw [dqEmpty_iff hring] at hempty
    omega
  · rw [responseOf_eq (hentries _ hmem) hused hmsg hroom]
    exact ⟨hrest, rfl⟩

/-- A run keeps the invariant. -/
theorem execAll_inv {is : List Instr} {s t : State} (h : s.Inv) (ht : execAll is s = .next t) : t.Inv := by
  induction is generalizing s with
  | nil =>
    obtain rfl : s = t := Host.Outcome.next.inj ht
    exact h
  | cons i is ih =>
    obtain ⟨u, hu, hrest⟩ := execAll_cons_eq_next ht
    exact ih (exec_inv h hu) hrest

/-- The operations of the round trip up to RECV: SEND, and for each frame its loopback and its FRAME_SENT. -/
def sendLoopback (b : List Byte) (fs : List Frame) : List Instr :=
  .send b :: fs.flatMap fun f => [loopback f, .frameSent]

theorem sendLoopback_sides {b : List Byte} {fs : List Frame} {i : Instr} (h : i ∈ sendLoopback b fs) :
    isTransmit i = true ∨ isReceive i = true := by
  rcases List.mem_cons.1 h with rfl | h
  · exact .inl rfl
  · obtain ⟨f, -, hf⟩ := List.mem_flatMap.1 h
    rcases List.mem_pair.1 hf with rfl | rfl
    · exact .inr rfl
    · exact .inl rfl

theorem filter_isTransmit_sendLoopback (b : List Byte) (fs : List Frame) :
    (sendLoopback b fs).filter isTransmit = .send b :: List.replicate fs.length .frameSent := by
  rw [sendLoopback, List.filter_cons_of_pos rfl]
  congr 1
  induction fs with
  | nil => rfl
  | cons f fs ih =>
    rw [List.flatMap_cons, List.filter_append, ih]
    rfl

theorem filter_isReceive_sendLoopback (b : List Byte) (fs : List Frame) :
    (sendLoopback b fs).filter isReceive = fs.map loopback := by
  rw [sendLoopback, List.filter_cons_of_neg Bool.false_ne_true]
  induction fs with
  | nil => rfl
  | cons f fs ih =>
    rw [List.flatMap_cons, List.filter_append, ih]
    rfl

/-- A delivery to an empty queue leaves exactly that message, with nothing dropped and no event (R190). -/
theorem Delivery.of_empty {src : BitVec 8} {m : List Byte} {s t : State} (h : Delivery src m s t)
    (hc : s.cfg.Legal) (hempty : dqCount s = 0) :
    queuedMessages t = [(src, m)] ∧ t.rxDrops = s.rxDrops ∧ t.trace = s.trace := by
  obtain ⟨-, -, -, hD, -⟩ := hc
  rw [Delivery, if_pos (by omega), queuedMessages_eq_nil.2 hempty] at h
  exact h

theorem txStatus_eq_idle {s : State} (h : txStatus s = .idle) : s.txInflight = false ∧ txCount s = 0 := by
  unfold txStatus at h
  split at h
  · cases h
  · split at h
    · exact ⟨by simpa using ‹¬s.txInflight = true›, ‹_›⟩
    · cases h

/-- Settles O44: the transmit operations of the run send the message whatever the receive side does, its receive
operations reassemble the message whatever the transmit side does, and RECV takes it from the queue. -/
theorem roundTrip : Obligations.RoundTrip := by
  intro b maxSize s hi hinv hst hdq hb hn hmax hroom
  obtain ⟨hc, hpool, hring, hlen, -, -, -⟩ := id hinv
  obtain ⟨hidle, hcount⟩ := txStatus_eq_idle hst
  obtain ⟨a, ha, hast, hatrace, hadrops⟩ :=
    execAll_send_drain hi hc hpool hidle (queuedFrames_eq_nil.2 hcount) hb hn hroom
  obtain ⟨c, hcrun, -, hdel, -, hcframe⟩ := execAll_loopback_segment (src := s.localId) hi hc hring hlen hb
  obtain ⟨hcq, hcdrops, hctrace⟩ := hdel.of_empty hc hdq
  rw [← filter_isTransmit_sendLoopback] at ha
  rw [← filter_isReceive_sendLoopback b] at hcrun
  obtain ⟨ea, eb, es, r, hea, heb, heq, hrun⟩ :=
    execAll_joinSides (fun _ => sendLoopback_sides) (.refl s) ha hcrun s.trace s.result
  rw [joinSides_self, heq (List.append_right_eq_self.1 (heb.symm.trans hctrace)), ← hea] at hrun
  have huinit : (joinSides a c a.trace r).initDone = true := by
    rw [joinSides, hcframe]
    exact hi
  obtain ⟨t, ht, htq, htframe⟩ := exec_recv_oldest huinit (execAll_inv hinv hrun) hcq hmax
  refine ⟨t, ?_, ?_, ?_, ?_, queuedMessages_eq_nil.1 htq, ?_, ?_⟩
  · exact (execAll_append hrun).trans (execAll_cons_of_next ht)
  · rw [htframe]
  · rw [htframe]
    exact hatrace
  · rw [htframe]
    exact hast
  · rw [htframe]
    exact hcdrops
  · rw [htframe]
    exact hadrops

end Sys2Proof.Machine
end

section
/-! PROOFS. The statements of 30_encoding.md: decoding and encoding are inverse (O1, O2), the operand encodings and
reserved codes that are refused (O3, O12), the words and identifiers of the tables (O4, O5), the classification of a
frame (O6), the two spellings of its reception (O7), the layout of a message (O21) and what is returned (O52). -/

namespace Sys2Proof

/-! ## Encoding and decoding are inverse (R82, R95, R96) -/

/-- Settles O1: each format reads back the operands that the encoder lays out, whatever follows them. -/
theorem decodeOfEncodeIsIdentity : Obligations.DecodeOfEncodeIsIdentity :=
  ⟨fun _ hwf => decode_encode hwf, fun _ rest hwf hcmd => decodeCommand_encodeCommand_append rest hwf hcmd⟩

/-- `bytes` is the encoding of the well-formed command `i`, followed by `rest`. -/
def EncodesThen (bytes : List Byte) (i : Instr) (rest : List Byte) : Prop :=
  i.wf = true ∧ i.isCommand = true ∧ bytes = encodeCommand i ++ rest

section
variable {bytes rest : List Byte} {i : Instr}

theorem encodesThen_of_decodeInit (h : decodeInit bytes = .ok (i, rest)) : EncodesThen (0 :: bytes) i rest := by
  unfold decodeInit at h
  split at h
  · cases h
    exact ⟨rfl, rfl, rfl⟩
  · cases h

theorem encodesThen_of_decodeSend (h : decodeSend bytes = .ok (i, rest)) : EncodesThen (1 :: bytes) i rest := by
  unfold decodeSend at h
  split at h
  case h_2 => cases h
  case h_1 lo hi tail =>
    split at h
    · cases h
    · cases h
      have hlen : (tail.take (le16 lo hi).toNat).length = (le16 lo hi).toNat := by
        rw [List.length_take]
        omega
      refine ⟨?_, rfl, ?_⟩
      · rw [Instr.wf, hlen, decide_eq_true_eq]
        omega
      · rw [encodeCommand, hlen, BitVec.ofNat_toNat, BitVec.setWidth_eq, lowByte_le16, highByte_le16]
        simp only [List.cons_append, List.take_append_drop]

theorem encodesThen_of_decodeRecv (h : decodeRecv bytes = .ok (i, rest)) : EncodesThen (2 :: bytes) i rest := by
  unfold decodeRecv at h
  split at h
  · cases h
    refine ⟨rfl, rfl, ?_⟩
    rw [encodeCommand, lowByte_le16, highByte_le16]
    rfl
  · cases h

theorem encodesThen_of_decodeFrameReceived (h : decodeFrameReceived bytes = .ok (i, rest)) :
    EncodesThen (3 :: bytes) i rest := by
  unfold decodeFrameReceived at h
  split at h
  case h_2 => cases h
  case h_1 =>
    split at h
    · cases h
    split at h
    · cases h
    · cases h
      refine ⟨rfl, rfl, ?_⟩
      rw [encodeCommand, srcOf_mkid, kindOf_mkid, setWidth_three_eight _ (by omega), setWidth_four_eight _ (by omega)]
      rfl

/-- The first bytes of the command formats, and the reserved codes (R95, R97). -/
theorem code_cases (code : Byte) :
    code = 0 ∨ code = 1 ∨ code = 2 ∨ code = 3 ∨ code = 4 ∨ code = 5 ∨ 6 ≤ code.toNat := by
  bv_omega

/-- The command decoder accepts nothing but encodings of well-formed commands. -/
theorem encodesThen_of_decodeCommand (h : decodeCommand bytes = .ok (i, rest)) : EncodesThen bytes i rest := by
  cases bytes with
  | nil => cases h
  | cons code tail =>
    obtain rfl | rfl | rfl | rfl | rfl | rfl | hcode := code_cases code
    · exact encodesThen_of_decodeInit h
    · exact encodesThen_of_decodeSend h
    · exact encodesThen_of_decodeRecv h
    · exact encodesThen_of_decodeFrameReceived h
    · cases h
      exact ⟨rfl, rfl, rfl⟩
    · cases h
      exact ⟨rfl, rfl, rfl⟩
    · rw [decodeCommand_reserved tail hcode] at h
      cases h
      exact ⟨decide_eq_true hcode, rfl, rfl⟩

end

theorem kind_cases (k : BitVec 3) : k = 0 ∨ k = 1 ∨ k = 2 ∨ 3 ≤ k.toNat := by
  bv_omega

/-- What a frame decodes to, by the kind in its identifier (R82). -/
theorem decodeFrame_cases (f : Frame) :
    (kindOf f.id = 0 ∧ decodeFrame f = .rxSingle (srcOf f.id) f.dlc f.data) ∨
      (kindOf f.id = 1 ∧ decodeFrame f = .rxFirst (srcOf f.id) f.dlc f.data) ∨
      (kindOf f.id = 2 ∧ decodeFrame f = .rxCont (srcOf f.id) f.dlc f.data) ∨
      (3 ≤ (kindOf f.id).toNat ∧ decodeFrame f = .rxReservedKind (kindOf f.id) (srcOf f.id) f.dlc f.data) := by
  obtain hkind | hkind | hkind | hkind := kind_cases (kindOf f.id)
  · exact .inl ⟨hkind, by rw [decodeFrame, hkind]; rfl⟩
  · exact .inr (.inl ⟨hkind, by rw [decodeFrame, hkind]; rfl⟩)
  · exact .inr (.inr (.inl ⟨hkind, by rw [decodeFrame, hkind]; rfl⟩))
  · have hdec := decodeFrame_reservedKind (srcOf f.id) f.dlc f.data hkind
    rw [mkid_kindOf_srcOf] at hdec
    exact .inr (.inr (.inr ⟨hkind, hdec⟩))

/-- Every frame is the encoding of the well-formed operation of its kind. -/
theorem encode_decodeFrame (f : Frame) : (decodeFrame f).wf = true ∧ encode (decodeFrame f) = .frame f := by
  obtain ⟨hkind, hdec⟩ | ⟨hkind, hdec⟩ | ⟨hkind, hdec⟩ | ⟨hkind, hdec⟩ := decodeFrame_cases f
  · rw [hdec, encode, ← hkind, mkid_kindOf_srcOf]
    exact ⟨rfl, rfl⟩
  · rw [hdec, encode, ← hkind, mkid_kindOf_srcOf]
    exact ⟨rfl, rfl⟩
  · rw [hdec, encode, ← hkind, mkid_kindOf_srcOf]
    exact ⟨rfl, rfl⟩
  · rw [hdec, encode, mkid_kindOf_srcOf]
    exact ⟨decide_eq_true hkind, rfl⟩

/-- Settles O2: each format determines its bytes from the operands it reads, and a frame's identifier is rebuilt from
its kind and source. -/
theorem encodeOfDecodeIsIdentity : Obligations.EncodeOfDecodeIsIdentity :=
  ⟨fun _ _ _ => encodesThen_of_decodeCommand, encode_decodeFrame⟩

/-! ## Refused operand encodings (R99) -/

theorem decodeInit_error_iff (bytes : List Byte) : (∃ e, decodeInit bytes = .error e) ↔ bytes.length < 1 := by
  cases bytes <;> simp [decodeInit]

theorem decodeSend_error_iff (bytes : List Byte) :
    (∃ e, decodeSend bytes = .error e) ↔
      bytes.length < 2 + (le16 (bytes.getD 0 0) (bytes.getD 1 0)).toNat := by
  obtain _ | ⟨lo, _ | ⟨hi, tail⟩⟩ := bytes
  · exact iff_of_true ⟨_, rfl⟩ (by simp)
  · exact iff_of_true ⟨_, rfl⟩ (by simp; omega)
  · rw [decodeSend]
    split
    · exact iff_of_true ⟨_, rfl⟩ (by simp; omega)
    · exact iff_of_false nofun (by simp; omega)

theorem decodeRecv_error_iff (bytes : List Byte) : (∃ e, decodeRecv bytes = .error e) ↔ bytes.length < 2 := by
  obtain _ | ⟨lo, _ | ⟨hi, tail⟩⟩ := bytes <;> simp [decodeRecv]

theorem decodeFrameReceived_error_iff (bytes : List Byte) :
    (∃ e, decodeFrameReceived bytes = .error e) ↔
      bytes.length < 11 ∨ 8 ≤ (bytes.getD 1 0).toNat ∨ 16 ≤ (bytes.getD 2 0).toNat := by
  unfold decodeFrameReceived
  split
  case h_1 =>
    split
    · exact iff_of_true ⟨_, rfl⟩ (.inr (.inl ‹_›))
    split
    · exact iff_of_true ⟨_, rfl⟩ (.inr (.inr ‹_›))
    · exact iff_of_false nofun (by simp; omega)
  case h_2 hshort =>
    refine iff_of_true ⟨_, rfl⟩ (.inl ?_)
    -- Eleven bytes or more would have matched the format.
    by_contra hlen
    iterate 11
      obtain _ | ⟨_, bytes⟩ := bytes
      · simp at hlen
    exact hshort _ _ _ _ _ _ _ _ _ _ _ _ rfl

/-! ## The words of the tables (R82, R95, R96) -/

/-- Settles O4: the decoders run on the words. -/
theorem specWordsDecode : Obligations.SpecWordsDecode :=
  ⟨rfl, rfl, rfl, rfl, rfl, rfl, rfl, rfl, rfl, rfl, rfl, rfl⟩

/-- Settles O5: concatenation and extraction of the two fields are inverse. -/
theorem identifierLayout : Obligations.IdentifierLayout := by
  refine ⟨fun k s => ⟨mkid_toNat k s, kindOf_mkid k s, srcOf_mkid k s⟩,
    fun id => ⟨fun j hj => ?_, fun j hj => ?_, mkid_kindOf_srcOf id⟩⟩
  · simp [kindOf, hj]
  · simp [srcOf, hj]

theorem classify_reserved {id : BitVec 11} {dlc : BitVec 4} (hdlc : ¬8 < dlc.toNat) (hkind : 3 ≤ (kindOf id).toNat) :
    classify id dlc = .reserved := by
  rw [classify, if_neg hdlc]
  split
  case h_4 => rfl
  all_goals omega

/-- Settles O6: the DLC test comes first, then the kind decides. -/
theorem frameClassification : Obligations.FrameClassification := by
  intro id dlc
  by_cases hdlc : 8 < dlc.toNat
  · have hclass : classify id dlc = .malformedDlc := if_pos hdlc
    simp [hclass, hdlc]
  · have hle : dlc.toNat ≤ 8 := Nat.le_of_not_lt hdlc
    obtain hkind | hkind | hkind | hkind := kind_cases (kindOf id)
    · simp [classify, hdlc, hle, hkind]
    · simp [classify, hdlc, hle, hkind]
    · simp [classify, hdlc, hle, hkind]
    · rw [classify_reserved hdlc hkind]
      simp [hdlc, hle, hkind]
      omega

end Sys2Proof

namespace Sys2Proof.Machine

/-! ## Steps that are refused (R97, R99, R232) -/

theorem formatLength_reserved {code : Byte} (tail : List Byte) (h : 6 ≤ code.toNat) :
    formatLength (code :: tail) = 1 := by
  rw [formatLength, List.getD_cons_zero]
  split
  case h_5 => rfl
  all_goals omega

/-- A command does not decode exactly on the grounds of R99. -/
theorem decodeCommand_error_iff (bytes : List Byte) :
    (∃ e, decodeCommand bytes = .error e) ↔
      bytes.length < formatLength bytes ∨
        ((bytes.getD 0 0).toNat = 3 ∧ (8 ≤ (bytes.getD 2 0).toNat ∨ 16 ≤ (bytes.getD 3 0).toNat)) := by
  cases bytes with
  | nil => exact iff_of_true ⟨_, rfl⟩ (.inl (by decide))
  | cons code tail =>
    obtain rfl | rfl | rfl | rfl | rfl | rfl | hcode := code_cases code
    · exact (decodeInit_error_iff tail).trans (by simp [formatLength])
    · exact (decodeSend_error_iff tail).trans (by simp [formatLength]; omega)
    · exact (decodeRecv_error_iff tail).trans (by simp [formatLength]; omega)
    · exact (decodeFrameReceived_error_iff tail).trans (by simp [formatLength]; omega)
    · exact iff_of_false nofun (by simp [formatLength])
    · exact iff_of_false nofun (by simp [formatLength])
    · rw [decodeCommand_reserved tail hcode]
      refine iff_of_false nofun ?_
      rw [formatLength_reserved tail hcode, List.getD_cons_zero, List.length_cons]
      omega

/-- Only the decoder refuses an arrival as an invalid operand. -/
theorem step_invalidOperand_iff {s : State} {a : Arrival} {rest : List Arrival} (hs : s.inbox = a :: rest) :
    step s = .refused .invalidOperand ↔ ∃ e, decode a = .error e := by
  cases hdec : decode a with
  | error e => exact iff_of_true (step_of_decode_error hs hdec) ⟨e, rfl⟩
  | ok d =>
    rw [step_of_decode hs hdec]
    exact iff_of_false (exec_ne_invalidOperand _ _) nofun

/-- Settles O3: such a refusal is the decoder's, and each format refuses on its own grounds. -/
theorem invalidOperandsRefused : Obligations.InvalidOperandsRefused :=
  fun _ bytes _ hs => (step_invalidOperand_iff hs).trans (decodeCommand_error_iff bytes)

/-- Settles O12: a reserved code decodes whatever follows it, and its meaning is the refusal. -/
theorem reservedCodesRefused : Obligations.ReservedCodesRefused :=
  ⟨fun _ _ => rfl, fun _ bytes _ _ hcode hs => step_of_decode hs (decodeCommand_reserved bytes hcode)⟩

/-! ## A frame in its two spellings (R101, R160) -/

/-- Settles O7: the frame kinds make the DLC test that classification makes first, and then follow the rule of their
class. -/
theorem frameKindsAreFrameReceived : Obligations.FrameKindsAreFrameReceived := by
  intro f s
  obtain ⟨hmal, hsingle, hfirst, hcont, hreserved⟩ := frameClassification f.id f.dlc
  by_cases hdlc : 8 < f.dlc.toNat
  · have hdrop : ∀ run, withLegalDlc f.dlc s run = s.dropRx .malformedDlc := fun _ => if_pos hdlc
    obtain ⟨-, hdec⟩ | ⟨-, hdec⟩ | ⟨-, hdec⟩ | ⟨-, hdec⟩ := decodeFrame_cases f <;>
      simp only [hdec, exec, execRxSingle, execRxFirst, execRxCont, execRxReservedKind, hdrop, execFrameReceived,
        hmal.2 hdlc]
  · have hle : f.dlc.toNat ≤ 8 := Nat.le_of_not_lt hdlc
    have hrun : ∀ run, withLegalDlc f.dlc s run = run := fun _ => if_neg hdlc
    obtain ⟨hkind, hdec⟩ | ⟨hkind, hdec⟩ | ⟨hkind, hdec⟩ | ⟨hkind, hdec⟩ := decodeFrame_cases f
    · simp only [hdec, exec, execRxSingle, hrun, execFrameReceived, hsingle.2 ⟨hle, congrArg BitVec.toNat hkind⟩]
    · simp only [hdec, exec, execRxFirst, hrun, execFrameReceived, hfirst.2 ⟨hle, congrArg BitVec.toNat hkind⟩]
    · simp only [hdec, exec, execRxCont, hrun, execFrameReceived, hcont.2 ⟨hle, congrArg BitVec.toNat hkind⟩]
    · simp only [hdec, exec, execRxReservedKind, hrun, execFrameReceived, hreserved.2 ⟨hle, hkind⟩]

/-! ## The layout of a message (R89) -/

/-- The frames of a longer message by their place. -/
theorem getElem?_segment_succ {b : List Byte} (s : BitVec 8) {j : Nat} (h : 8 < b.length)
    (hj : j + 1 < nframes b.length) : (segment b s)[j + 1]? = some (contFrame b s (j + 1)) := by
  rw [segment_of_gt s h, List.getElem?_cons_succ, List.getElem?_map, List.getElem?_range (by omega)]
  rfl

theorem contFrame_dlc_bounds {b : List Byte} (s : BitVec 8) {k : Nat} (h : 8 < b.length) (hk : 1 ≤ k)
    (hkn : k < nframes b.length) : 1 ≤ (contFrame b s k).dlc.toNat ∧ (contFrame b s k).dlc.toNat ≤ 8 := by
  have hlen := contFrame_len h hk hkn
  rw [contFrame_dlc s h hk hkn]
  omega

/-- Every CONT frame but the last is full. -/
theorem contFrame_dlc_of_next {b : List Byte} (s : BitVec 8) {k : Nat} (h : 8 < b.length) (hk : 1 ≤ k)
    (hnext : k + 1 < nframes b.length) : (contFrame b s k).dlc.toNat = 8 := by
  have hfit := nframes_of_gt h
  rw [contFrame_dlc s h hk (by omega)]
  omega

/-- The last CONT frame holds the remainder. -/
theorem contFrame_dlc_last {b : List Byte} (s : BitVec 8) {k : Nat} (h : 8 < b.length)
    (hk : k + 1 = nframes b.length) : (contFrame b s k).dlc.toNat = b.length - 6 - 8 * (nframes b.length - 2) := by
  have hfit := nframes_of_gt h
  rw [contFrame_dlc s h (by omega) (by omega)]
  omega

theorem lowByte_ofNat (n : Nat) : lowByte (BitVec.ofNat 16 n) = BitVec.ofNat 8 (n % 256) := by
  apply BitVec.eq_of_toNat_eq
  rw [lowByte_toNat, BitVec.toNat_ofNat, BitVec.toNat_ofNat]
  omega

theorem highByte_ofNat {n : Nat} (h : n ≤ 65535) : highByte (BitVec.ofNat 16 n) = BitVec.ofNat 8 (n / 256) := by
  apply BitVec.eq_of_toNat_eq
  rw [highByte_toNat, BitVec.toNat_ofNat, BitVec.toNat_ofNat]
  omega

/-- Settles O21: the one frame of a short message, and the first and the later frames of a longer one, as they were
built. -/
theorem messageLayout : Obligations.MessageLayout := by
  intro b s hb
  refine ⟨fun h => ⟨singleFrame b s, segment_of_le s h, rfl, singleFrame_dlc s h, singleFrame_data s h⟩,
    fun h => ⟨length_segment b s, ⟨firstFrame b s, ?_, rfl, firstFrame_dlc b s, ?_⟩, fun k hk hkn => ?_⟩⟩
  · rw [segment_of_gt s h, List.getElem?_cons_zero]
  · rw [firstFrame_data s h, lowByte_ofNat, highByte_ofNat hb]
  · obtain ⟨j, rfl⟩ := Nat.exists_eq_add_of_le' hk
    exact ⟨contFrame b s (j + 1), getElem?_segment_succ s h hkn, rfl, contFrame_dlc s h hk hkn,
      contFrame_data s h hk hkn, contFrame_dlc_of_next s h hk,
      fun hlast => ⟨contFrame_dlc_last s h hlast, contFrame_dlc_bounds s h hk hkn⟩⟩

/-! ## Results in bytes (R98, R194, R230, R231) -/

theorem tooLarge_eq_decide (c : Config) (len : Nat) :
    tooLarge c len = decide (c.maxMsg < len ∨ c.poolFrames < nframes len) := (Bool.decide_or _ _).symm

/-- What SEND returns (R98, R133). -/
theorem execSend_result {b : List Byte} {s t : State} (h : exec (.send b) s = .next t) :
    t.result = .status (
      if s.cfg.maxMsg < b.length ∨ s.cfg.poolFrames < nframes b.length then 0x01
      else if txFree s < nframes b.length then 0x02 else 0x00) := by
  obtain ⟨-, ⟨hlarge, rfl⟩ | ⟨hfits, hfull, rfl⟩ | ⟨hfits, hroom, rfl⟩⟩ := execSend_cases h
  · rw [tooLarge_eq_decide, decide_eq_true_eq] at hlarge
    rw [if_pos hlarge]
  · rw [tooLarge_eq_decide, decide_eq_false_iff_not] at hfits
    rw [canAcquire, decide_eq_false_iff_not] at hfull
    rw [if_neg hfits, if_pos (by omega)]
  · rw [tooLarge_eq_decide, decide_eq_false_iff_not] at hfits
    rw [canAcquire, decide_eq_true_eq] at hroom
    rw [if_neg hfits, if_neg (by omega)]

/-- What RECV returns (R98, R194, R195). -/
theorem execRecv_result {maxSize : Half} {s t : State} (h : exec (.recv maxSize) s = .next t) :
    t.result = if (s.dqEntry s.dqRd.toNat).used = false then .response false 0 0 []
      else responseOf (s.dqEntry s.dqRd.toNat) maxSize := by
  obtain ⟨-, ⟨hempty, rfl⟩ | ⟨hne, rfl⟩⟩ := execRecv_cases h
  · rw [dqEmpty, Bool.not_eq_true'] at hempty
    rw [if_pos hempty]
  · rw [dqEmpty, Bool.not_eq_false'] at hne
    rw [if_neg (by rw [hne]; nofun)]
    rfl

/-- Every other operation returns nothing (R98). -/
theorem exec_result_none {i : Instr} {s t : State} (hsend : ∀ b, i ≠ .send b) (hrecv : ∀ maxSize, i ≠ .recv maxSize)
    (h : exec i s = .next t) : t.result = .none := by
  obtain ⟨id, rfl⟩ | ⟨code, rfl⟩ | hi | hi := instr_cases i
  · rw [finish_eq_next.1 h]
  · exact absurd h (exec_reservedCmd_ne_next code s t)
  · obtain ⟨b, rfl⟩ | rfl | rfl := isTransmit_cases hi
    · exact absurd rfl (hsend b)
    · obtain ⟨-, ⟨-, rfl⟩ | ⟨-, rfl⟩⟩ := execFrameSent_cases h <;> rfl
    · obtain ⟨-, rfl⟩ := execDispatch_cases h
      rfl
  · obtain ⟨m, rfl⟩ | ⟨src, hsrc⟩ := isReceive_cases hi
    · exact absurd rfl (hrecv m)
    · obtain ⟨-, u, -, rfl⟩ := received_of_exec hsrc h
      rfl

/-- Settles O52: each way an operation completes sets its result; the layout and the codes are the tables'. -/
theorem resultBytesAndCodes : Obligations.ResultBytesAndCodes := by
  refine ⟨fun i s t h => ⟨fun hsend hrecv => exec_result_none hsend hrecv h, ?_, ?_⟩,
    rfl, fun _ => rfl, fun _ _ _ _ => rfl, rfl, rfl, rfl, rfl⟩
  · rintro b rfl
    exact execSend_result h
  · rintro maxSize rfl
    rw [execRecv_result h, responseOf, slice_zero]

end Sys2Proof.Machine
end

section
/-! PROOFS. The statements of 41_segmenter.md: the number and the shape of the frames of a message (O19, O22), a rejected
and an accepted SEND (O24, O25), DISPATCH and FRAME_SENT (O26, O27, O28), the segmenter state machine (O29), and that
the queued frames are all sent (O33). -/

namespace Sys2Proof.Machine

/-! ## The frames of a message (R130, R132) -/

/-- Settles O19: the two bounds are those of the rounded division, and the examples are computed. -/
theorem frameCount : Obligations.FrameCount :=
  ⟨fun _ => nframes_of_le, fun _ => nframes_of_gt, by decide⟩

/-- Settles O22: each of the three shapes of frame is well built. -/
theorem segmentFramesWellBuilt : Obligations.SegmentFramesWellBuilt :=
  fun b s => ⟨length_segment b s, fun _ => segment_frames_ok⟩

/-! ## The three outcomes of SEND (R131, R133, R135) -/

section
variable {b : List Byte} {s : State}

theorem exec_send_of_tooLarge (hi : s.initDone = true)
    (hlarge : s.cfg.maxMsg < b.length ∨ s.cfg.poolFrames < nframes b.length) :
    exec (.send b) s = .next { s.dropTx .messageTooLarge with result := .status 0x01 } := by
  rw [exec, execSend, whenInitialised_of_true hi, tooLarge_eq_decide, decide_eq_true hlarge]
  rfl

theorem exec_send_of_poolExhausted (hi : s.initDone = true) (hb : b.length ≤ s.cfg.maxMsg)
    (hn : nframes b.length ≤ s.cfg.poolFrames) (hfull : txFree s < nframes b.length) :
    exec (.send b) s = .next { s.dropTx .poolExhausted with result := .status 0x02 } := by
  have hfits : ¬(s.cfg.maxMsg < b.length ∨ s.cfg.poolFrames < nframes b.length) := by omega
  rw [exec, execSend, whenInitialised_of_true hi, tooLarge_eq_decide, decide_eq_false hfits, canAcquire,
    decide_eq_false (Nat.not_le.2 hfull)]
  rfl

theorem exec_send_of_room (hi : s.initDone = true) (hb : b.length ≤ s.cfg.maxMsg)
    (hroom : nframes b.length ≤ txFree s) :
    exec (.send b) s =
      .next { tryDispatch (storeFrames s (segment b s.localId)) with result := .status 0x00 } := by
  have hfits : ¬(s.cfg.maxMsg < b.length ∨ s.cfg.poolFrames < nframes b.length) := by
    rw [txFree_eq] at hroom
    omega
  rw [exec, execSend, whenInitialised_of_true hi, tooLarge_eq_decide, decide_eq_false hfits, canAcquire,
    decide_eq_true hroom]
  rfl

/-- A SEND that is too long, or for which too few slots are free, drops the message and writes nothing else: more frames
than slots are more than the free ones. -/
theorem exec_send_rejected (hi : s.initDone = true) (h : s.cfg.maxMsg < b.length ∨ txFree s < nframes b.length) :
    ∃ c r, exec (.send b) s = .next { s.dropTx c with result := r } := by
  by_cases hlarge : s.cfg.maxMsg < b.length ∨ s.cfg.poolFrames < nframes b.length
  · exact ⟨_, _, exec_send_of_tooLarge hi hlarge⟩
  · exact ⟨_, _, exec_send_of_poolExhausted hi (by omega) (by omega) (by omega)⟩

end

/-- Settles O24: the two rejections, too large before too little room. -/
theorem sendRejection : Obligations.SendRejection :=
  fun _ _ hi => ⟨exec_send_of_tooLarge hi, exec_send_of_poolExhausted hi⟩

/-! ## The dispatch step of each operation (R133, R140, R142, R144) -/

/-- Of the state it starts from, a dispatch step reads the in-flight bit, the room answers and the trace only. -/
theorem DispatchStep.congr {q : List Frame} {s s' t : State} (h : DispatchStep q s t)
    (hflight : s.txInflight = s'.txInflight) (htrace : s.trace = s'.trace) (hanswers : s.roomAnswers = s'.roomAnswers)
    (hdraws : s.roomDraws = s'.roomDraws) : DispatchStep q s' t := by
  rw [DispatchStep, TookOneAnswer, roomAnswer, hflight, htrace, hanswers, hdraws] at h
  exact h

/-- Settles O25: the frames are stored behind the queue, which is a write to the pool and `tx_wr` alone, and
`try_dispatch` makes its step on the longer queue. -/
theorem sendAcceptance : Obligations.SendAcceptance := by
  intro b s hi ⟨_, hP, _⟩ hring hb hroom
  have hfit : txCount s + (segment b s.localId).length ≤ s.cfg.poolFrames := by
    rw [length_segment]
    exact txCount_add_le_of_canAcquire (nframes_pos _) (decide_eq_true hroom)
  obtain ⟨hring', hq⟩ := storeFrames_spec _ hring hP hfit
  obtain ⟨hring'', hstep⟩ := tryDispatch_spec hring' (by rwa [storeFrames_cfg])
  rw [hq] at hstep
  refine ⟨_, exec_send_of_room hi hb hroom, ?_, hring'', ?_, ?_⟩
  · exact hstep.congr (storeFrames_txInflight ..) (storeFrames_trace ..) (storeFrames_roomAnswers ..)
      (storeFrames_roomDraws ..)
  · rw [tryDispatch_txWr, storeFrames_txWr _ hring hP hfit, length_segment]
  · rw [tryDispatch_frame, storeFrames_frame]

/-- Settles O26: DISPATCH is `try_dispatch`. -/
theorem dispatchResult : Obligations.DispatchResult := by
  intro s hi ⟨_, hP, _⟩ hring
  obtain ⟨hring', hstep⟩ := tryDispatch_spec hring hP
  refine ⟨{ tryDispatch s with result := .none }, whenInitialised_of_true hi _, hstep, hring', ?_⟩
  rw [tryDispatch_frame]

/-- FRAME_SENT with a frame in flight is `try_dispatch` with the bit cleared (R142). -/
theorem exec_frameSent_of_inflight {s : State} (hi : s.initDone = true) (hflight : s.txInflight = true) :
    exec .frameSent s = .next { tryDispatch { s with txInflight := false } with result := .none } := by
  rw [exec, execFrameSent, whenInitialised_of_true hi, if_pos hflight]
  rfl

/-- Settles O27: the queue does not read the bit that FRAME_SENT clears. -/
theorem frameSentResult : Obligations.FrameSentResult := by
  intro s hi hflight ⟨_, hP, _⟩ hring
  obtain ⟨hring', hstep⟩ := tryDispatch_spec (s := { s with txInflight := false }) hring hP
  refine ⟨_, exec_frameSent_of_inflight hi hflight, hstep, hring', ?_⟩
  rw [tryDispatch_frame]

/-- Settles O28: FRAME_SENT tests the in-flight bit first. -/
theorem spuriousFrameSent : Obligations.SpuriousFrameSent := by
  intro s hi hflight
  rw [exec, execFrameSent, whenInitialised_of_true hi, if_neg (by simp [hflight])]
  rfl

/-! ## The statuses (R31) -/

section
variable {s t : State}

theorem txStatus_eq_waitSent_iff : txStatus s = .waitSent ↔ s.txInflight = true := by
  unfold txStatus
  split
  · simp [*]
  · split <;> simp [*]

theorem txStatus_eq_ready_iff : txStatus s = .ready ↔ s.txInflight = false ∧ 0 < txCount s := by
  unfold txStatus
  split
  · simp [*]
  · split
    · simp [*]
    · simp [*, Nat.pos_iff_ne_zero]

theorem txStatus_eq_idle_iff : txStatus s = .idle ↔ s.txInflight = false ∧ txCount s = 0 :=
  ⟨txStatus_eq_idle, fun ⟨hflight, hcount⟩ => by simp [txStatus, hflight, hcount]⟩

theorem txStatus_ne_waitSent_iff : txStatus s ≠ .waitSent ↔ s.txInflight = false := by
  rw [Ne, txStatus_eq_waitSent_iff, Bool.not_eq_true]

/-- A segmenter that is not ready has a frame in flight or none queued. -/
theorem inflight_or_queuedFrames_eq_nil (h : txStatus s ≠ .ready) : s.txInflight = true ∨ queuedFrames s = [] := by
  rw [Ne, txStatus_eq_ready_iff, not_and_or, Bool.not_eq_false, Nat.pos_iff_ne_zero, not_not] at h
  exact h.imp_right queuedFrames_eq_nil.2

theorem txStatus_congr (hflight : t.txInflight = s.txInflight) (hcount : txCount t = txCount s) :
    txStatus t = txStatus s := by
  rw [txStatus, txStatus, hflight, hcount]

end

/-! ## The segmenter state machine (R145) -/

section
variable {q : List Frame} {s t : State}

/-- With a frame in flight or none queued a dispatch step changes neither bit nor count, and is silent. -/
theorem DispatchStep.blocked (h : DispatchStep q s t) (hno : s.txInflight = true ∨ q = []) :
    t.txInflight = s.txInflight ∧ txCount t = q.length ∧ t.trace = s.trace := by
  rw [DispatchStep, if_pos hno] at h
  obtain ⟨hq, hflight, htrace, -, -⟩ := h
  exact ⟨hflight, by rw [← queuedFrames_length, hq], htrace⟩

/-- The driver has no room: the frames stay queued. -/
theorem DispatchStep.noRoom (h : DispatchStep q s t) (hflight : s.txInflight = false) (hpos : 0 < q.length)
    (hans : roomAnswer s = false) : txStatus t = .ready ∧ t.trace = s.trace ++ [.roomQuery false] := by
  rw [DispatchStep, if_neg (by simp [hflight, List.length_pos_iff.1 hpos]), if_neg (by simp [hans])] at h
  obtain ⟨-, hflight', hq, htrace⟩ := h
  refine ⟨txStatus_eq_ready_iff.2 ⟨hflight', ?_⟩, htrace⟩
  rwa [← queuedFrames_length, hq]

/-- The driver has room: one frame fewer is queued, and it is in flight. -/
theorem DispatchStep.room (h : DispatchStep q s t) (hflight : s.txInflight = false) (hpos : 0 < q.length)
    (hans : roomAnswer s = true) :
    txStatus t = .waitSent ∧ txCount t + 1 = q.length ∧ ∃ f, t.trace = s.trace ++ [.roomQuery true, .sendFrame f] := by
  rw [DispatchStep, if_neg (by simp [hflight, List.length_pos_iff.1 hpos]), if_pos hans] at h
  obtain ⟨-, hflight', f, rfl, htrace⟩ := h
  exact ⟨txStatus_eq_waitSent_iff.2 hflight', by simp, f, htrace⟩

end

/-- Settles O29: each row of SEND, FRAME_SENT and DISPATCH is one case of the dispatch step that the operation makes, by
what is in flight, what is queued and what the driver answers. -/
theorem segmenterStateMachine : Obligations.SegmenterStateMachine := by
  intro s hi hc hring
  have hcount := queuedFrames_length s
  refine ⟨fun b hb hroom => ?send, ?frameSent, ?dispatch, fun b hrej => ?rejected, fun id => ?init⟩
  case send =>
    obtain ⟨t, ht, hstep, -⟩ := sendAcceptance b s hi hc hring hb hroom
    have hlen : (queuedFrames s ++ segment b s.localId).length = txCount s + nframes b.length := by
      rw [List.length_append, hcount, length_segment]
    have hpos : 0 < (queuedFrames s ++ segment b s.localId).length := hlen ▸ Nat.add_pos_right _ (nframes_pos _)
    refine ⟨t, ht, fun hst hans => ?_, fun hst hans => ?_, fun hst hans => ?_, fun hst => ?_⟩
    · exact hstep.noRoom (txStatus_ne_waitSent_iff.1 hst) hpos hans
    · obtain ⟨hidle, hzero⟩ := txStatus_eq_idle_iff.1 hst
      obtain ⟨hst', hcount', hevents⟩ := hstep.room hidle hpos hans
      exact ⟨hst', by rw [hcount', hlen, hzero, Nat.zero_add], hevents⟩
    · obtain ⟨hst', -, hevents⟩ := hstep.room (txStatus_eq_ready_iff.1 hst).1 hpos hans
      exact ⟨hst', hevents⟩
    · rw [txStatus_eq_waitSent_iff] at hst
      obtain ⟨hflight, hcount', htrace⟩ := hstep.blocked (.inl hst)
      exact ⟨txStatus_eq_waitSent_iff.2 (hflight.trans hst), hcount'.trans hlen, htrace⟩
  case frameSent =>
    by_cases hflight : s.txInflight = true
    · obtain ⟨t, ht, hstep, -⟩ := frameSentResult s hi hflight hc hring
      refine ⟨t, ht, fun _ hzero => ?_, fun _ hpos hans => ?_, fun _ hpos hans => ?_, fun hst => ?_⟩
      · obtain ⟨hidle, hcount', htrace⟩ := hstep.blocked (.inr (queuedFrames_eq_nil.2 hzero))
        exact ⟨txStatus_eq_idle_iff.2 ⟨hidle, by rw [hcount', hcount, hzero]⟩, htrace⟩
      · exact hstep.noRoom rfl (hcount ▸ hpos) hans
      · exact hcount ▸ hstep.room rfl (hcount ▸ hpos) hans
      · exact absurd (txStatus_eq_waitSent_iff.2 hflight) hst
    · have hno : txStatus s ≠ .waitSent := txStatus_ne_waitSent_iff.2 (Bool.eq_false_iff.2 hflight)
      exact ⟨_, spuriousFrameSent s hi (Bool.eq_false_iff.2 hflight), fun hst => absurd hst hno,
        fun hst => absurd hst hno, fun hst => absurd hst hno, fun _ => ⟨rfl, rfl, rfl⟩⟩
  case dispatch =>
    obtain ⟨t, ht, hstep, -⟩ := dispatchResult s hi hc hring
    refine ⟨t, ht, fun hst hans => ?_, fun hst hans => ?_, fun hst => ?_⟩
    · obtain ⟨hidle, hpos⟩ := txStatus_eq_ready_iff.1 hst
      exact hstep.noRoom hidle (hcount ▸ hpos) hans
    · obtain ⟨hidle, hpos⟩ := txStatus_eq_ready_iff.1 hst
      obtain ⟨hst', -, hevents⟩ := hstep.room hidle (hcount ▸ hpos) hans
      exact ⟨hst', hevents⟩
    · obtain ⟨hflight, hcount', htrace⟩ := hstep.blocked (inflight_or_queuedFrames_eq_nil hst)
      exact ⟨txStatus_congr hflight (hcount'.trans hcount), hcount'.trans hcount, htrace⟩
  case rejected =>
    obtain ⟨c, r, ht⟩ := exec_send_rejected hi hrej
    exact ⟨_, c, ht, rfl, rfl, rfl⟩
  case init =>
    exact ⟨_, rfl, txStatus_eq_idle_iff.2 ⟨rfl, txCount_of_cleared rfl⟩, rfl⟩

/-! ## All queued frames are sent (R146) -/

/-- Settles O33: DISPATCH hands over the oldest frame, and each FRAME_SENT the next one. -/
theorem queuedFramesAreAllSent : Obligations.QueuedFramesAreAllSent := by
  intro s hi hc hring hidle hpos hroom
  rw [← queuedFrames_length] at hpos hroom ⊢
  obtain ⟨f, fs, hq⟩ := List.exists_cons_of_length_pos hpos
  rw [hq] at hroom ⊢
  obtain ⟨hsend, htrace⟩ := tryDispatch_sending hi hc hring hidle hq hroom
  have hdispatch : exec .dispatch s = .next { tryDispatch s with result := .none } := whenInitialised_of_true hi _
  have hsend' : Sending fs { tryDispatch s with result := .none } := hsend
  obtain ⟨t, ht, hst, htrace', -⟩ := hsend'.drain
  refine ⟨t, (execAll_cons_of_next hdispatch).trans ht, hst, ?_⟩
  rw [htrace', htrace, List.append_assoc]
  rfl

end Sys2Proof.Machine
end

section
/-! PROOFS. The statements of 42_reassembler.md: a frame of illegal DLC or of a reserved kind (O34, O38), SINGLE, FIRST
and CONT frames case by case (O35, O36, O37), a start frame over a partial message (O39), and the independence of the
sources (O40). -/

namespace Sys2Proof.Machine

/-! ## Frames that touch no slot (R161, R172) -/

/-- FRAME_RECEIVED of a frame with dlc > 8 (R161). -/
theorem exec_frameReceived_malformedDlc {id : BitVec 11} {dlc : BitVec 4} {data : Bytes8} {s : State}
    (hi : s.initDone = true) (hd : 8 < dlc.toNat) :
    exec (.frameReceived id dlc data) s = .next { s.dropRx .malformedDlc with result := .none } := by
  obtain ⟨hmal, -⟩ := frameClassification id dlc
  simp only [exec, execFrameReceived, whenInitialised_of_true hi, hmal.2 hd]
  rfl

/-- Settles O34: classification tests the DLC first, and the frame kinds are other spellings of FRAME_RECEIVED. -/
theorem malformedDlcDropped : Obligations.MalformedDlcDropped := by
  rintro _ f s (rfl | rfl) hi hd
  · exact (frameKindsAreFrameReceived f s).trans (exec_frameReceived_malformedDlc hi hd)
  · exact exec_frameReceived_malformedDlc hi hd

/-- Settles O38: a kind from 3 on is classified as reserved. -/
theorem reservedKindDropped : Obligations.ReservedKindDropped := by
  rintro _ kind src dlc data s hk (rfl | rfl) hi hd
  · rw [exec, execRxReservedKind, whenInitialised_of_true hi, withLegalDlc, if_neg (Nat.not_lt.2 hd)]
    rfl
  · obtain ⟨-, -, -, -, hreserved⟩ := frameClassification (mkid kind src) dlc
    have hclass : classify (mkid kind src) dlc = .reserved := hreserved.2 ⟨hd, by rwa [kindOf_mkid]⟩
    simp only [exec, execFrameReceived, whenInitialised_of_true hi, hclass]
    rfl

/-! ## The cases of each kind (R162, R164 to R169) -/

theorem payloadFrom_zero (dlc : BitVec 4) (data : Bytes8) : payloadFrom 0 dlc data = data.toList.take dlc.toNat :=
  slice_zero _ _

theorem headerTotal_toNat (data : Bytes8) : (headerTotal data).toNat = data.d0.toNat + 256 * data.d1.toNat :=
  le16_toNat _ _

/-- The slot that a FIRST frame leaves when it does not end its message (R165). -/
def startedSlot (maxMsg : Nat) (dlc : BitVec 4) (data : Bytes8) : RxSlot :=
  { active := true, total := headerTotal data, acc := BitVec.ofNat 16 (dlc.toNat - 2),
    buf := payloadFrom 2 dlc data ++ zeros (maxMsg - (dlc.toNat - 2)) }

/-- The slot `r` after a CONT frame that does not end its message (R168). -/
def grownSlot (r : RxSlot) (dlc : BitVec 4) (data : Bytes8) : RxSlot :=
  { r with acc := BitVec.ofNat 16 (r.acc.toNat + dlc.toNat)
           buf := memWrite r.buf r.acc.toNat (payloadFrom 0 dlc data) }

section
variable {src : BitVec 8} {dlc : BitVec 4} {data : Bytes8} {s : State}

theorem receiveSingle_oversize (h : s.cfg.maxMsg < dlc.toNat) :
    receiveSingle src dlc data s = (s.idleRxSlot src).dropRx .oversize := if_pos h

theorem receiveSingle_complete (h : dlc.toNat ≤ s.cfg.maxMsg) :
    receiveSingle src dlc data s = complete src (payloadFrom 0 dlc data) (s.idleRxSlot src) :=
  if_neg (Nat.not_lt.2 h)

theorem receiveFirst_malformed (h : dlc.toNat < 2) :
    receiveFirst src dlc data s = (s.idleRxSlot src).dropRx .malformedFirst := if_pos h

section
variable (h2 : 2 ≤ dlc.toNat)
include h2

theorem receiveFirst_oversize (hT : s.cfg.maxMsg < (headerTotal data).toNat) :
    receiveFirst src dlc data s = (s.idleRxSlot src).dropRx .oversize :=
  (if_neg (Nat.not_lt.2 h2)).trans (if_pos hT)

variable (hT : (headerTotal data).toNat ≤ s.cfg.maxMsg)
include hT

theorem receiveFirst_overrun (hk : (headerTotal data).toNat < dlc.toNat - 2) :
    receiveFirst src dlc data s = (s.idleRxSlot src).dropRx .overrun := by
  rw [receiveFirst, State.idleRxSlot_cfg, if_neg (Nat.not_lt.2 h2), if_neg (Nat.not_lt.2 hT), if_pos hk]

theorem receiveFirst_complete (hk : dlc.toNat - 2 = (headerTotal data).toNat) :
    receiveFirst src dlc data s = complete src (payloadFrom 2 dlc data) (s.idleRxSlot src) := by
  rw [receiveFirst, State.idleRxSlot_cfg, if_neg (Nat.not_lt.2 h2), if_neg (Nat.not_lt.2 hT),
    if_neg (Nat.not_lt.2 hk.le), if_pos hk]

theorem receiveFirst_started (hk : dlc.toNat - 2 < (headerTotal data).toNat) :
    receiveFirst src dlc data s = s.setRxSlot src (startedSlot s.cfg.maxMsg dlc data) := by
  rw [receiveFirst, State.idleRxSlot_cfg, if_neg (Nat.not_lt.2 h2), if_neg (Nat.not_lt.2 hT),
    if_neg hk.not_gt, if_neg hk.ne, setRxSlot_idleRxSlot]
  rfl

end

theorem receiveCont_orphan (h : (s.rxSlot src).active = false) :
    receiveCont src dlc data s = s.dropRx .orphanContinuation := by
  rw [receiveCont, h]
  rfl

section
variable (h : (s.rxSlot src).active = true)
include h

theorem receiveCont_overrun (hlt : (s.rxSlot src).total.toNat < (s.rxSlot src).acc.toNat + dlc.toNat) :
    receiveCont src dlc data s = (s.idleRxSlot src).dropRx .overrun := by
  rw [receiveCont, h]
  exact if_pos hlt

/-- The message completed by a CONT frame is what was accumulated and then the payload (R168). -/
theorem receiveCont_complete (hr : RxSlotOk s.cfg.maxMsg (s.rxSlot src)) (hd : dlc.toNat ≤ 8)
    (heq : (s.rxSlot src).acc.toNat + dlc.toNat = (s.rxSlot src).total.toNat) :
    receiveCont src dlc data s =
      complete src ((s.rxSlot src).buf.take (s.rxSlot src).acc.toNat ++ payloadFrom 0 dlc data)
        (s.idleRxSlot src) := by
  obtain ⟨hlen, hact⟩ := id hr
  rw [if_pos h] at hact
  obtain ⟨hacc, htotal, -⟩ := hact
  have hm : ((s.rxSlot src).buf.take (s.rxSlot src).acc.toNat ++ payloadFrom 0 dlc data).length =
      (s.rxSlot src).total.toNat := by
    rw [List.length_append, List.length_take, length_payloadFrom]
    omega
  rw [receiveCont, h, memWrite_active hr h, memRead, Nat.zero_add, slice_zero, List.take_left' hm]
  exact (if_neg (Nat.not_lt.2 heq.le)).trans (if_pos heq)

theorem receiveCont_grown (hlt : (s.rxSlot src).acc.toNat + dlc.toNat < (s.rxSlot src).total.toNat) :
    receiveCont src dlc data s = s.setRxSlot src (grownSlot (s.rxSlot src) dlc data) := by
  rw [receiveCont, grownSlot, h]
  exact (if_neg hlt.not_gt).trans (if_neg hlt.ne)

end

/-! ## The result of each kind -/

variable {i : Instr}

/-- An operation that completes a message on the idled slot delivers it, and writes nothing else (R170). -/
theorem exists_delivery_of_complete {m m' : List Byte} (hc : s.cfg.Legal) (hq : DqRing s)
    (hm : m.length ≤ s.cfg.maxMsg) (heq : m = m')
    (h : exec i s = .next { complete src m (s.idleRxSlot src) with result := .none }) :
    ∃ t, exec i s = .next t ∧ DqRing t ∧ Delivery src m' s t ∧
      t = { s with rs := s.rs.set src.toNat (idleSlot s.cfg.maxMsg), dq := t.dq, dqWr := t.dqWr,
                   rxDrops := t.rxDrops, trace := t.trace, result := .none } := by
  subst heq
  obtain ⟨hring, hdel, hframe⟩ := complete_idle_spec src m s hc hq hm
  refine ⟨_, h, hring, hdel, ?_⟩
  rw [hframe]

end

/-- Settles O35: the two cases of a SINGLE frame. -/
theorem singleFrameResult : Obligations.SingleFrameResult := by
  intro i src dlc data s h hi hc hq hd
  have hexec := exec_single hi hd h
  refine ⟨fun hbig => ?_, fun hfit => ?_⟩
  · rw [hexec, receiveSingle_oversize hbig]
    rfl
  · rw [receiveSingle_complete hfit] at hexec
    refine exists_delivery_of_complete hc hq ?_ (payloadFrom_zero dlc data) hexec
    rw [length_payloadFrom]
    omega

/-- Settles O36: the five cases of a FIRST frame. -/
theorem firstFrameResult : Obligations.FirstFrameResult := by
  intro i src dlc data s h hi hc hq hd
  have hexec := exec_first hi hd h
  rw [← headerTotal_toNat]
  refine ⟨fun h2 => ?_, fun h2 hT => ?_, fun h2 hT hk => ?_, fun h2 hT hk => ?_, fun h2 hT hk => ?_⟩
  · rw [hexec, receiveFirst_malformed h2]
    rfl
  · rw [hexec, receiveFirst_oversize h2 hT]
    rfl
  · rw [hexec, receiveFirst_overrun h2 hT hk]
    rfl
  · rw [receiveFirst_complete h2 hT hk] at hexec
    refine exists_delivery_of_complete (m := payloadFrom 2 dlc data) hc hq ?_ rfl hexec
    rw [length_payloadFrom]
    omega
  · rw [receiveFirst_started h2 hT hk] at hexec
    refine ⟨startedSlot s.cfg.maxMsg dlc data, rfl, rfl, ?_, rfl, hexec⟩
    rw [startedSlot, BitVec.toNat_ofNat]
    omega

/-- Settles O37: the four cases of a CONT frame. -/
theorem contFrameResult : Obligations.ContFrameResult := by
  intro i src dlc data s h hi hc hq hr hd
  have hexec := exec_cont hi hd h
  have hpay : (payloadFrom 0 dlc data).length = dlc.toNat := by rw [length_payloadFrom]; omega
  refine ⟨fun hidle => ?_, fun hact hlt => ?_, fun hact heq => ?_, fun hact hlt => ?_⟩
  · rw [hexec, receiveCont_orphan hidle]
    rfl
  · rw [hexec, receiveCont_overrun hact hlt]
    rfl
  · rw [receiveCont_complete hact hr hd heq] at hexec
    refine exists_delivery_of_complete hc hq ?_ (by rw [payloadFrom_zero]) hexec
    obtain ⟨-, hlegal⟩ := hr
    rw [if_pos hact] at hlegal
    rw [List.length_append, List.length_take, hpay]
    omega
  · rw [receiveCont_grown hact hlt] at hexec
    refine ⟨grownSlot (s.rxSlot src) dlc data, hact, rfl, ?_, ?_, hexec⟩
    · rw [grownSlot, BitVec.toNat_ofNat]
      omega
    · rw [grownSlot, memWrite_active hr hact, hpay, payloadFrom_zero]

/-! ## A start frame over a partial message (R163, R217) -/

/-- Idling a slot forgets what it held. -/
theorem idleRxSlot_setRxSlot (src : BitVec 8) (r : RxSlot) (s : State) :
    (s.setRxSlot src r).idleRxSlot src = s.idleRxSlot src := by
  simp only [State.idleRxSlot, State.setRxSlot, List.set_set]

theorem receiveSingle_setRxSlot (src : BitVec 8) (dlc : BitVec 4) (data : Bytes8) (r : RxSlot) (s : State) :
    receiveSingle src dlc data (s.setRxSlot src r) = receiveSingle src dlc data s := by
  simp only [receiveSingle, idleRxSlot_setRxSlot]

theorem receiveFirst_setRxSlot (src : BitVec 8) (dlc : BitVec 4) (data : Bytes8) (r : RxSlot) (s : State) :
    receiveFirst src dlc data (s.setRxSlot src r) = receiveFirst src dlc data s := by
  simp only [receiveFirst, idleRxSlot_setRxSlot]

/-- After INIT, a start frame does not depend on what its source's slot holds. -/
theorem exec_start_setRxSlot {i : Instr} {src : BitVec 8} {dlc : BitVec 4} {data : Bytes8} {s : State}
    (h : i = .rxSingle src dlc data ∨ i = .rxFirst src dlc data ∨ i = .frameReceived (mkid 0 src) dlc data ∨
      i = .frameReceived (mkid 1 src) dlc data) (hd : dlc.toNat ≤ 8) (hi : s.initDone = true) (r : RxSlot) :
    exec i (s.setRxSlot src r) = exec i s := by
  have hkind : (i = .rxSingle src dlc data ∨ i = .frameReceived (mkid 0 src) dlc data) ∨
      (i = .rxFirst src dlc data ∨ i = .frameReceived (mkid 1 src) dlc data) := by tauto
  rcases hkind with h | h
  · rw [exec_single hi hd h, exec_single (s := s.setRxSlot src r) hi hd h, receiveSingle_setRxSlot]
  · rw [exec_first hi hd h, exec_first (s := s.setRxSlot src r) hi hd h, receiveFirst_setRxSlot]

/-- Settles O39: a start frame idles the slot before anything else, and before INIT it is refused. -/
theorem startFrameIgnoresPartial : Obligations.StartFrameIgnoresPartial := by
  intro i src dlc data s r r' h hd
  show exec i (s.setRxSlot src r) = exec i (s.setRxSlot src r')
  cases hi : s.initDone with
  | true => rw [exec_start_setRxSlot h hd hi, exec_start_setRxSlot h hd hi]
  | false =>
    have hinit : ∀ id, i ≠ .init id := by rcases h with rfl | rfl | rfl | rfl <;> nofun
    have hres : ∀ code, i ≠ .reservedCmd code := by rcases h with rfl | rfl | rfl | rfl <;> nofun
    rw [exec_refused_before_init (s := s.setRxSlot src r) hi hinit hres,
      exec_refused_before_init (s := s.setRxSlot src r') hi hinit hres]

/-! ## The sources are independent (R171) -/

theorem isReceive_of_sourceOf {i : Instr} {src : BitVec 8} (h : sourceOf i = some src) : isReceive i = true := by
  cases i <;> simp_all [sourceOf, isReceive]

theorem rxSlot_setRxSlot_ne {u src : BitVec 8} (h : u ≠ src) (r : RxSlot) (s : State) :
    (s.setRxSlot src r).rxSlot u = s.rxSlot u := rxSlot_withOtherSlot h.symm r s

section
variable {u src : BitVec 8} {s t : State}

/-- A received frame leaves the slots of other sources. -/
theorem Received.rxSlot_of_ne (h : Received src s t) (hu : u ≠ src) : t.rxSlot u = s.rxSlot u := by
  cases h with
  | drop c => rfl
  | idleDrop c => exact rxSlot_setRxSlot_ne hu _ s
  | deliver m _ =>
    rw [State.rxSlot, dqPush_rs, dqPush_cfg]
    exact rxSlot_setRxSlot_ne hu _ s
  | store r _ => exact rxSlot_setRxSlot_ne hu r s

/-- `dq_push` writes no entry but the one at `dq_wr` (R190, R191). -/
theorem dqPush_dqEntry_of_ne {m : List Byte} {j : Nat} (hj : j ≠ s.dqWr.toNat) :
    (dqPush src m s).dqEntry j = s.dqEntry j := by
  unfold dqPush
  split
  · rfl
  · exact getD_set_ne _ hj.symm

theorem Received.dqEntry_of_ne {j : Nat} (h : Received src s t) (hj : j ≠ s.dqWr.toNat) :
    t.dqEntry j = s.dqEntry j := by
  cases h with
  | drop c => rfl
  | idleDrop c => rfl
  | deliver m _ => exact dqPush_dqEntry_of_ne (s := s.idleRxSlot src) hj
  | store r _ => rfl

theorem exec_withLegalDlc_withOtherSlot {r : RxSlot} {dlc : BitVec 4} {f : State → State}
    (h : f (withOtherSlot u r s) = withOtherSlot u r (f s))
    (ht : whenInitialised s (finish .none (withLegalDlc dlc s (f s))) = .next t) :
    whenInitialised (withOtherSlot u r s)
      (finish .none (withLegalDlc dlc (withOtherSlot u r s) (f (withOtherSlot u r s)))) =
      .next (withOtherSlot u r t) :=
  exec_withOtherSlot u r (fun s => withLegalDlc dlc s (f s)) s t (withLegalDlc_withOtherSlot u r dlc f s h) ht

/-- A received frame does the same whatever the slot of another source holds. -/
theorem exec_received_withOtherSlot {i : Instr} (hsrc : sourceOf i = some src) (hu : u ≠ src)
    (ht : exec i s = .next t) (r : RxSlot) : exec i (withOtherSlot u r s) = .next (withOtherSlot u r t) := by
  cases i with
  | frameReceived id dlc data =>
    obtain rfl : srcOf id = src := Option.some.inj hsrc
    cases hclass : classify id dlc <;> simp only [exec, execFrameReceived, hclass] at ht ⊢
    case malformedDlc => exact exec_withOtherSlot u r _ s t (dropRx_withOtherSlot u _ r s) ht
    case single => exact exec_withOtherSlot u r _ s t (receiveSingle_withOtherSlot hu dlc data r s) ht
    case first => exact exec_withOtherSlot u r _ s t (receiveFirst_withOtherSlot hu dlc data r s) ht
    case cont => exact exec_withOtherSlot u r _ s t (receiveCont_withOtherSlot hu dlc data r s) ht
    case reserved => exact exec_withOtherSlot u r _ s t (dropRx_withOtherSlot u _ r s) ht
  | rxSingle src' dlc data =>
    obtain rfl : src' = src := Option.some.inj hsrc
    exact exec_withLegalDlc_withOtherSlot (receiveSingle_withOtherSlot hu dlc data r s) ht
  | rxFirst src' dlc data =>
    obtain rfl : src' = src := Option.some.inj hsrc
    exact exec_withLegalDlc_withOtherSlot (receiveFirst_withOtherSlot hu dlc data r s) ht
  | rxCont src' dlc data =>
    obtain rfl : src' = src := Option.some.inj hsrc
    exact exec_withLegalDlc_withOtherSlot (receiveCont_withOtherSlot hu dlc data r s) ht
  | rxReservedKind kind src' dlc data =>
    exact exec_withLegalDlc_withOtherSlot (dropRx_withOtherSlot u _ r s) ht
  | _ => cases hsrc

end

/-- Settles O40: what a received frame can do writes its source's slot and the entry at `dq_wr` only, and reads no other
slot. -/
theorem sourcesAreIndependent : Obligations.SourcesAreIndependent := by
  intro i src s t hsrc ht
  obtain ⟨-, v, hv, rfl⟩ := received_of_exec hsrc ht
  obtain ⟨-, hflight, hpool, htxRd, htxWr, hdrops, -⟩ := receive_frame (isReceive_of_sourceOf hsrc) ht
  exact ⟨fun _ hu => hv.rxSlot_of_ne hu, fun _ hj => hv.dqEntry_of_ne hj,
    ⟨hpool, htxRd, htxWr, hflight, hdrops⟩, fun _ r hu => exec_received_withOtherSlot hsrc hu ht r⟩

end Sys2Proof.Machine
end

section
/-! PROOFS. The statements of 43_dispatch_queue.md: RECV as a FIFO of messages with silent truncation (O41), and RECVs
on an empty queue (O42). -/

namespace Sys2Proof.Machine

/-! ## One RECV (R194, R195) -/

theorem exec_recv_of_empty {s : State} (maxSize : Half) (hi : s.initDone = true) (hempty : dqEmpty s = true) :
    exec (.recv maxSize) s = .next { s with result := .response false 0 0 [] } := by
  rw [exec, execRecv, whenInitialised_of_true hi, if_pos hempty]
  rfl

theorem exec_recv_of_nonempty {s : State} (maxSize : Half) (hi : s.initDone = true) (hne : dqEmpty s = false) :
    exec (.recv maxSize) s = .next { (dqPop s).2 with result := responseOf (dqPop s).1 maxSize } := by
  rw [exec, execRecv, whenInitialised_of_true hi, if_neg (ne_true_of_eq_false hne)]
  rfl

/-- The buffer of a legal entry holds its whole message. -/
theorem DqEntryOk.length_message {maxMsg : Nat} {e : DqEntry} (hok : DqEntryOk maxMsg e) (hused : e.used = true) :
    e.message.2.length = e.len.toNat := by
  obtain ⟨hbytes, hlen⟩ := hok
  rw [if_pos hused] at hlen
  rw [DqEntry.message, length_slice, hbytes]
  omega

/-- What RECV returns of a legal entry: a prefix of its message, cut at `max_size` (R194, R196). -/
theorem responseOf_eq_take {maxMsg : Nat} {e : DqEntry} (maxSize : Half) (hok : DqEntryOk maxMsg e)
    (hused : e.used = true) :
    responseOf e maxSize = .response true (BitVec.ofNat 16 (min e.message.2.length maxSize.toNat)) e.message.1
      (e.message.2.take (min e.message.2.length maxSize.toNat)) := by
  have hprefix : e.message.2.take (min e.len.toNat maxSize.toNat) =
      slice e.bytes 0 (min e.len.toNat maxSize.toNat) := by
    rw [DqEntry.message, slice_zero, slice_zero, List.take_take, Nat.min_eq_left (Nat.min_le_left _ _)]
  rw [DqEntryOk.length_message hok hused, hprefix]
  rfl

/-- Settles O41: by the ring's laws RECV pops the oldest entry, and it returns a prefix of that entry's message. -/
theorem recvResult : Obligations.RecvResult := by
  rintro maxSize s hi ⟨-, -, -, -, hD⟩ hring hentries
  refine ⟨fun hq => exec_recv_of_empty maxSize hi ((dqEmpty_iff hring).2 (queuedMessages_eq_nil.1 hq)), ?_⟩
  intro src m q hq
  have hcount : dqCount s ≠ 0 := fun h => by simp [queuedMessages_eq_nil.2 h] at hq
  obtain ⟨hring', hmem, hused, hpop⟩ := dqPop_spec hring hD (Nat.pos_of_ne_zero hcount)
  obtain ⟨hmsg, hrest⟩ := List.cons.inj (hpop.symm.trans hq)
  have hresult := responseOf_eq_take maxSize (hentries _ hmem) hused
  rw [hmsg] at hresult
  have hcopied : min m.length maxSize.toNat < 2 ^ 16 := by omega
  have hne : dqEmpty s = false := Bool.eq_false_iff.2 (mt (dqEmpty_iff hring).1 hcount)
  exact ⟨_, BitVec.ofNat 16 _, exec_recv_of_nonempty maxSize hi hne, Nat.mod_eq_of_lt hcopied, hresult, hrest, hring',
    rfl⟩

/-- Settles O42, by induction on the RECVs that follow: a RECV on an empty queue changes the last result only, so the
next one finds the same state. -/
theorem recvOnEmptyHasNoEffect : Obligations.RecvOnEmptyHasNoEffect := by
  intro maxSize maxSizes s hi hempty
  rw [execAll_cons_of_next (exec_recv_of_empty maxSize hi hempty)]
  induction maxSizes with
  | nil => rfl
  | cons next rest ih =>
    rw [List.map_cons, execAll_cons_of_next
      (exec_recv_of_empty (s := { s with result := .response false 0 0 [] }) next hi hempty)]
    exact ih

end Sys2Proof.Machine
end

section
/-! PROOFS. The statements of 44_init_accounting.md: the result of INIT (O16), drop accounting (O45), and that drops
leave no error mode (O48). -/

namespace Sys2Proof.Machine

/-! ## INIT (R210) -/

/-- INIT completes in one way, from every state (R210). -/
theorem execInit_cases {id : BitVec 8} {s t : State} (h : exec (.init id) s = .next t) :
    t = { State.powerOn s.cfg id with
      initDone := true, inbox := s.inbox, roomAnswers := s.roomAnswers, roomDraws := s.roomDraws,
      trace := s.trace } :=
  finish_eq_next.1 h

/-- Settles O16: INIT puts the block at power-on with `init_done` set, and keeps what stands for the environment. -/
theorem initResult : Obligations.InitResult := by
  intro id s
  obtain ⟨t, ht⟩ : ∃ t, exec (.init id) s = .next t := ⟨_, rfl⟩
  refine ⟨t, ht, ?_⟩
  obtain rfl := execInit_cases ht
  exact ⟨rfl, rfl, rfl, rfl, rfl, rfl, rfl, rfl, rfl, rfl, rfl, rfl, rfl, rfl, rfl, rfl, rfl, rfl⟩

/-! ## Drop accounting (R214 to R216) -/

/-- From `s` to `t` at most one drop is notified, and each counter grows by the notifications of its side. -/
def DropsAccounted (s t : State) : Prop :=
  ∃ es, t.trace = s.trace ++ es ∧ es.countP Event.isRxDrop + es.countP Event.isTxDrop ≤ 1 ∧
    t.rxDrops.toNat = (s.rxDrops.toNat + es.countP Event.isRxDrop) % 2 ^ 32 ∧
    t.txDrops.toNat = (s.txDrops.toNat + es.countP Event.isTxDrop) % 2 ^ 32

section
variable {s t : State}

/-- Events that are no drop notifications, beside counters that are left alone. -/
theorem DropsAccounted.of_no_drop {es : List Event} (htrace : t.trace = s.trace ++ es)
    (hrxEvents : es.countP Event.isRxDrop = 0) (htxEvents : es.countP Event.isTxDrop = 0)
    (hrx : t.rxDrops = s.rxDrops) (htx : t.txDrops = s.txDrops) : DropsAccounted s t := by
  refine ⟨es, htrace, by omega, ?_, ?_⟩
  · rw [hrx, hrxEvents]
    exact (Nat.mod_eq_of_lt s.rxDrops.isLt).symm
  · rw [htx, htxEvents]
    exact (Nat.mod_eq_of_lt s.txDrops.isLt).symm

theorem DropsAccounted.of_silent (htrace : t.trace = s.trace) (hrx : t.rxDrops = s.rxDrops)
    (htx : t.txDrops = s.txDrops) : DropsAccounted s t :=
  .of_no_drop (es := []) (by rw [htrace, List.append_nil]) rfl rfl hrx htx

/-- One receive-side drop (R214). -/
theorem DropsAccounted.of_rxDrop {c : RxCause} (htrace : t.trace = s.trace ++ [.rxDropped c])
    (hrx : t.rxDrops = s.rxDrops + 1) (htx : t.txDrops = s.txDrops) : DropsAccounted s t := by
  refine ⟨_, htrace, Nat.le_refl 1, ?_, ?_⟩
  · rw [hrx]
    exact BitVec.toNat_add _ _
  · rw [htx]
    exact (Nat.mod_eq_of_lt s.txDrops.isLt).symm

/-- One transmit-side drop (R215). -/
theorem DropsAccounted.of_txDrop {c : TxCause} (htrace : t.trace = s.trace ++ [.txDropped c])
    (hrx : t.rxDrops = s.rxDrops) (htx : t.txDrops = s.txDrops + 1) : DropsAccounted s t := by
  refine ⟨_, htrace, Nat.le_refl 1, ?_, ?_⟩
  · rw [hrx]
    exact (Nat.mod_eq_of_lt s.rxDrops.isLt).symm
  · rw [htx]
    exact BitVec.toNat_add _ _

end

/-- `try_dispatch` drops nothing (R140). -/
theorem tryDispatch_dropsAccounted (s : State) : DropsAccounted s (tryDispatch s) := by
  have hrx := tryDispatch_rxDrops s
  have htx := tryDispatch_txDrops s
  obtain ⟨es, htrace, ⟨rfl, -⟩ | ⟨-, rfl, -⟩ | ⟨-, f, rfl, -⟩⟩ := tryDispatch_events s
  · exact .of_no_drop htrace rfl rfl hrx htx
  · exact .of_no_drop htrace rfl rfl hrx htx
  · exact .of_no_drop htrace rfl rfl hrx htx

theorem exec_transmit_dropsAccounted {i : Instr} {s t : State} (hi : isTransmit i = true) (h : exec i s = .next t) :
    DropsAccounted s t := by
  rcases isTransmit_cases hi with ⟨b, rfl⟩ | rfl | rfl
  · obtain ⟨-, ⟨-, rfl⟩ | ⟨-, -, rfl⟩ | ⟨-, -, rfl⟩⟩ := execSend_cases h
    · exact .of_txDrop (c := .messageTooLarge) rfl rfl rfl
    · exact .of_txDrop (c := .poolExhausted) rfl rfl rfl
    · have hdispatch := tryDispatch_dropsAccounted (storeFrames s (segment b s.localId))
      rw [DropsAccounted, storeFrames_trace, storeFrames_rxDrops, storeFrames_txDrops] at hdispatch
      exact hdispatch
  · obtain ⟨-, ⟨-, rfl⟩ | ⟨-, rfl⟩⟩ := execFrameSent_cases h
    · exact tryDispatch_dropsAccounted { s with txInflight := false }
    · exact .of_silent rfl rfl rfl
  · obtain ⟨-, rfl⟩ := execDispatch_cases h
    exact tryDispatch_dropsAccounted s

/-- `dq_push` drops the message exactly when the queue is full, and counts it then (R191). -/
theorem dqPush_dropsAccounted (src : BitVec 8) (m : List Byte) (s : State) : DropsAccounted s (dqPush src m s) := by
  unfold dqPush
  split
  · exact .of_rxDrop (c := .dqFull) rfl rfl rfl
  · exact .of_silent rfl rfl rfl

theorem exec_receive_dropsAccounted {i : Instr} {s t : State} (hi : isReceive i = true) (h : exec i s = .next t) :
    DropsAccounted s t := by
  rcases isReceive_cases hi with ⟨m, rfl⟩ | ⟨src, hsrc⟩
  · obtain ⟨-, ⟨-, rfl⟩ | ⟨-, rfl⟩⟩ := execRecv_cases h
    · exact .of_silent rfl rfl rfl
    · exact .of_silent rfl rfl rfl
  · obtain ⟨-, u, hu, rfl⟩ := received_of_exec hsrc h
    cases hu with
    | drop c => exact .of_rxDrop (c := c) rfl rfl rfl
    | idleDrop c => exact .of_rxDrop (c := c) rfl rfl rfl
    | deliver m _ => exact dqPush_dropsAccounted src m (s.idleRxSlot src)
    | store r _ => exact .of_silent rfl rfl rfl

/-- An operation other than INIT keeps the account: those of either side do, and a reserved code never completes. -/
theorem exec_dropsAccounted {i : Instr} {s t : State} (hinit : ∀ id, i ≠ .init id) (h : exec i s = .next t) :
    DropsAccounted s t := by
  rcases instr_cases i with ⟨id, rfl⟩ | ⟨code, rfl⟩ | hi | hi
  · exact absurd rfl (hinit id)
  · exact absurd h (exec_reservedCmd_ne_next code s t)
  · exact exec_transmit_dropsAccounted hi h
  · exact exec_receive_dropsAccounted hi h

/-- Settles O45: INIT clears the counters and emits nothing, and every other operation keeps the account. -/
theorem dropAccounting : Obligations.DropAccounting := by
  intro i s t h
  by_cases hi : ∃ id, i = .init id
  · obtain ⟨id, rfl⟩ := hi
    obtain rfl := execInit_cases h
    exact ⟨[], (List.append_nil _).symm, Nat.zero_le 1, fun _ _ => ⟨rfl, rfl, rfl⟩,
      fun hne => absurd rfl (hne id)⟩
  · have hinit : ∀ id, i ≠ .init id := fun id hid => hi ⟨id, hid⟩
    obtain ⟨es, htrace, hone, hcounters⟩ := exec_dropsAccounted hinit h
    exact ⟨es, htrace, hone, fun id hid => absurd hid (hinit id), fun _ => hcounters⟩

/-! ## No error mode (R218) -/

/-- `s` with other drop counters, earlier events and last result. -/
def withOutputs (s : State) (rx tx : BitVec 32) (es : List Event) (r : Result) : State :=
  { s with rxDrops := rx, txDrops := tx, trace := es, result := r }

/-- `i` does from any other drop counters, earlier events and last result what it does from `s` to `t`. -/
def IgnoresOutputs (i : Instr) (s t : State) : Prop :=
  ∃ new, t.trace = s.trace ++ new ∧ ∀ rx tx es r, ∃ rx' tx',
    exec i (withOutputs s rx tx es r) = .next (withOutputs t rx' tx' (es ++ new) t.result)

/-- INIT reads none of them (R210). -/
theorem exec_init_ignoresOutputs {id : BitVec 8} {s t : State} (h : exec (.init id) s = .next t) :
    IgnoresOutputs (.init id) s t := by
  obtain rfl := execInit_cases h
  exact ⟨[], (List.append_nil _).symm, fun _ _ es _ => ⟨0, 0, by rw [List.append_nil]; rfl⟩⟩

/-- A transmit operation does the same beside the receive side of `s` with any counters, events and result. -/
theorem exec_transmit_ignoresOutputs {i : Instr} {s t : State} (hi : isTransmit i = true) (h : exec i s = .next t) :
    IgnoresOutputs i s t := by
  obtain ⟨new, d, -, hrun⟩ := exec_withReceiveSide hi h
  have hself := hrun s.rs s.dq s.dqRd s.dqWr s.rxDrops s.txDrops s.trace s.result
  have ht : t = withReceiveSide t s.rs s.dq s.dqRd s.dqWr s.rxDrops (s.txDrops + d) (s.trace ++ new) t.result :=
    Host.Outcome.next.inj (h.symm.trans hself)
  refine ⟨new, congrArg State.trace ht, fun rx tx es r => ⟨rx, tx + d, ?_⟩⟩
  have hout := congrArg (fun u => withOutputs u rx (tx + d) (es ++ new) t.result) ht
  exact (hrun s.rs s.dq s.dqRd s.dqWr rx tx es r).trans (congrArg Host.Outcome.next hout.symm)

/-- A receive operation does the same beside the transmit side of `s` with any counters, events and result. -/
theorem exec_receive_ignoresOutputs {i : Instr} {s t : State} (hi : isReceive i = true) (h : exec i s = .next t) :
    IgnoresOutputs i s t := by
  obtain ⟨new, d, -, htrace, hrun⟩ := exec_withTransmitSide hi h
  refine ⟨new, htrace, fun rx tx es r => ⟨rx + d, tx, ?_⟩⟩
  have hout := congrArg (fun u => withOutputs u (rx + d) tx (es ++ new) t.result) (receive_eq_withTransmitSide hi h)
  exact (hrun { s with txDrops := tx } s.localId rx es r).trans (congrArg Host.Outcome.next hout.symm)

theorem exec_ignoresOutputs {i : Instr} {s t : State} (h : exec i s = .next t) : IgnoresOutputs i s t := by
  rcases instr_cases i with ⟨id, rfl⟩ | ⟨code, rfl⟩ | hi | hi
  · exact exec_init_ignoresOutputs h
  · exact absurd h (exec_reservedCmd_ne_next code s t)
  · exact exec_transmit_ignoresOutputs hi h
  · exact exec_receive_ignoresOutputs hi h

/-- Settles O48: INIT and the operations of either side read neither the counters nor the events nor the result. -/
theorem dropsLeaveNoErrorMode : Obligations.DropsLeaveNoErrorMode := by
  intro i s t rx tx es r h
  obtain ⟨new, htrace, hrun⟩ := exec_ignoresOutputs h
  obtain ⟨rx', tx', hnext⟩ := hrun rx tx es r
  exact ⟨withOutputs t rx' tx' (es ++ new) t.result, hnext, rfl, new, htrace, rfl⟩

end Sys2Proof.Machine
end

section
/-! PROOFS. The statements of 60_exceptions.md: a dutiful operation completes (O9), and when a step is refused (O10). -/

namespace Sys2Proof.Machine

/-! ## Operations that complete, and operations that are refused (R247, R261) -/

/-- Settles O9: INIT completes in every state, and the duties of every other operation include that INIT came first. -/
theorem dutifulOperationsComplete : Obligations.DutifulOperationsComplete := by
  intro i s duty
  cases i with
  | init id => exact ⟨_, rfl⟩
  | reservedCmd code => cases duty
  | frameSent =>
    have hinit : s.initDone = true := (Bool.and_eq_true_iff.1 duty).1
    exact exec_completes hinit nofun
  | _ => exact exec_completes duty nofun

/-- An operation is refused on two grounds only: it is a reserved code, or INIT has to come first. -/
theorem exec_refused_iff (i : Instr) (s : State) :
    (∃ r, exec i s = .refused r) ↔
      (∃ code, i = .reservedCmd code) ∨ (s.initDone = false ∧ ∀ id, i ≠ .init id) := by
  by_cases hres : ∃ code, i = .reservedCmd code
  · obtain ⟨code, rfl⟩ := hres
    exact iff_of_true ⟨_, rfl⟩ (.inl ⟨code, rfl⟩)
  by_cases hx : ∃ id, i = .init id
  · obtain ⟨id, rfl⟩ := hx
    exact iff_of_false nofun (by simp)
  cases hinit : s.initDone with
  | false =>
    have hrefused := exec_refused_before_init hinit (not_exists.1 hx) (not_exists.1 hres)
    exact iff_of_true ⟨_, hrefused⟩ (.inr ⟨rfl, not_exists.1 hx⟩)
  | true =>
    obtain ⟨t, ht⟩ := exec_completes hinit (not_exists.1 hres)
    exact iff_of_false (by simp [ht]) (by simp [hres])

/-! ## Steps that are refused (R232) -/

/-- Settles O10: the decoder refuses the arrival, or `exec` refuses the operation it decodes to; with an empty inbox
the block holds its state. -/
theorem refusedExactlyWhen : Obligations.RefusedExactlyWhen := by
  intro s
  cases hs : s.inbox with
  | nil =>
    rw [step_of_inbox_nil hs]
    exact iff_of_false nofun nofun
  | cons a rest =>
    cases hd : decode a with
    | error e => exact iff_of_true ⟨_, step_of_decode_error hs hd⟩ ⟨a, rest, rfl, .inl ⟨e, hd⟩⟩
    | ok d =>
      obtain ⟨i, left⟩ := d
      rw [step_of_decode hs hd, exec_refused_iff]
      simp [hd]

end Sys2Proof.Machine
end

section
/-! PROOFS. The statements of 70_reset_and_hazards.md: power-on (O13), the block before its first INIT (O11, O15), and
INIT as a fresh start (O17). -/

namespace Sys2Proof.Machine

/-! ## Power-on (R260) -/

/-- Settles O13: power-on writes each element out, and a slot read from a cleared array is idle. -/
theorem powerOnState : Obligations.PowerOnState := by
  refine ⟨fun c id => ?_, Config.testVectors, 0, rfl⟩
  have hslot (src : BitVec 8) : (State.powerOn c id).rxSlot src = idleSlot c.maxMsg := rxSlot_of_cleared rfl src
  exact ⟨rfl, rfl, rfl, rfl, rfl, hslot, rfl, rfl, rfl, rfl, rfl⟩

/-! ## Before the first INIT (R261) -/

/-- Settles O11: the guard of each operation but INIT. -/
theorem refusedBeforeInit : Obligations.RefusedBeforeInit :=
  fun _ _ hs hinit hres => exec_refused_before_init hs hinit hres

/-- The only operation that completes before INIT is INIT itself. -/
theorem eq_init_of_exec_next {i : Instr} {s t : State} (hs : s.initDone = false) (h : exec i s = .next t) :
    ∃ id, i = .init id := by
  by_contra hinit
  have hrefused : ∃ r, exec i s = .refused r := (exec_refused_iff i s).2 (.inr ⟨hs, not_exists.1 hinit⟩)
  obtain ⟨r, hr⟩ := hrefused
  rw [hr] at h
  cases h

/-- A step that leaves `init_done` at 0 served nothing: the operation that completes before INIT would have set it. -/
theorem step_eq_self_of_initDone_false {s t : State} (h : step s = .next t) (ht : t.initDone = false) : t = s := by
  rcases step_eq_next h with ⟨-, rfl⟩ | ⟨a, rest, i, left, -, -, hexec⟩
  · rfl
  · have hs : s.initDone = false := by
      by_contra hs
      have hkept : t.initDone = true := (configurationIsFixed s t h).2 (by simpa using hs)
      rw [ht] at hkept
      cases hkept
    obtain ⟨id, rfl⟩ := eq_init_of_exec_next (s := { s with inbox := pendingAfter left rest }) hs hexec
    obtain rfl := execInit_cases hexec
    cases ht

/-- Settles O15: until the first INIT no step that completes changes anything. -/
theorem untouchedBeforeInit : Obligations.UntouchedBeforeInit := by
  intro s t hpower h ht
  obtain rfl := step_eq_self_of_initDone_false h ht
  exact hpower ht

/-! ## INIT as a fresh start (R212, R262) -/

/-- Settles O17: what INIT writes to the block is made of the configuration and the operand alone. -/
theorem initForgetsThePast : Obligations.InitForgetsThePast := by
  intro id s s' hcfg hlegal
  obtain ⟨t, ht⟩ : ∃ t, exec (.init id) s = .next t := ⟨_, rfl⟩
  obtain ⟨t', ht'⟩ : ∃ t', exec (.init id) s' = .next t' := ⟨_, rfl⟩
  refine ⟨t, t', ht, ht', ?_, execInit_inv hlegal ht⟩
  rw [execInit_cases ht, execInit_cases ht', hcfg]
  exact ⟨rfl, rfl, rfl, rfl, rfl, rfl, rfl, rfl, rfl, rfl, rfl, rfl, rfl⟩

end Sys2Proof.Machine
end
